-- ==== Sys2Proof/Word.lean ====
section
/-! DEFINITION. The cell, the one word type of this machine (spec/00_scope.md R5, R7). -/

namespace Sys2Proof

/-- One 16-bit storage unit: memory, registers, stack and queue all hold these (R5, CELL_BITS). -/
abbrev Cell := BitVec 16

end Sys2Proof
end

