-- ==== Sys2Proof/Config.lean ====
section
/-! DEFINITION. The parameters the spec leaves open and takes as arguments of the model
(spec/00_scope.md R6). MEM_SIZE, the fourth of them, is the size of the memory itself
(Machine/State.lean, Memory.size). The spec leaves no value of an instruction undefined, so no
free value stands here. -/

namespace Sys2Proof

/-- What one machine fixes at its construction besides its memory (R6). -/
structure Config where
  /-- STACK_DEPTH: most entries of the stack, none when unbounded (R26). -/
  stackDepth : Option Nat
  /-- QUEUE_DEPTH: most entries of the input queue, none when unbounded (R29). -/
  queueDepth : Option Nat
  /-- OUT_MAX: the largest value `out` accepts as a character (R122). -/
  outMax : Nat
  deriving DecidableEq, Repr

/-- The spec's defaults (R6, column "Default"; decisions D10 and D13). -/
def Config.default : Config where
  stackDepth := none
  queueDepth := none
  outMax := 255

end Sys2Proof
end

