-- ==== Sys2Proof/Syntax.lean ====
section
/-! DEFINITION. The instructions, one constructor per row of spec/opcode_table.json
(spec/30_encoding.md R82, R84), and their operands as the three classes of an operand cell
(R83, R85). -/

namespace Sys2Proof

/-- An operand cell by its class (R83). In a destination position a number is a memory address and
a register the register written; in a value position a number is a literal and a register the
register read; what an invalid cell does depends on the position (R85, R88). -/
inductive Operand where
  /-- A cell 0..32767: its low 15 bits. -/
  | number (n : BitVec 15)
  /-- A cell 32768 + i, i in 0..7. -/
  | register (i : Fin 8)
  /-- A cell 32776..65535, kept as it is: it can pass through as a value (R88). -/
  | invalid (c : Cell)
  deriving DecidableEq, Repr

/-- The 22 instructions in the order of their codes (R84). The constructor of the instruction
whose mnemonic is the Lean keyword "in" is `inp`. -/
inductive Instr where
  | halt
  | set (a b : Operand)
  | push (a : Operand)
  | pop (a : Operand)
  | eq (a b c : Operand)
  | gt (a b c : Operand)
  | jmp (a : Operand)
  | jt (a b : Operand)
  | jf (a b : Operand)
  | add (a b c : Operand)
  | mult (a b c : Operand)
  | mod (a b c : Operand)
  | and (a b c : Operand)
  | or (a b c : Operand)
  | not (a b : Operand)
  | rmem (a b : Operand)
  | wmem (a b : Operand)
  | call (a : Operand)
  | ret
  | out (a : Operand)
  | inp (a : Operand)
  | noop
  deriving DecidableEq, Repr

/-- The operands of an instruction in the order of their cells a, b, c (R82). -/
def Instr.operands : Instr → List Operand
  | .halt => []
  | .set a b => [a, b]
  | .push a => [a]
  | .pop a => [a]
  | .eq a b c => [a, b, c]
  | .gt a b c => [a, b, c]
  | .jmp a => [a]
  | .jt a b => [a, b]
  | .jf a b => [a, b]
  | .add a b c => [a, b, c]
  | .mult a b c => [a, b, c]
  | .mod a b c => [a, b, c]
  | .and a b c => [a, b, c]
  | .or a b c => [a, b, c]
  | .not a b => [a, b]
  | .rmem a b => [a, b]
  | .wmem a b => [a, b]
  | .call a => [a]
  | .ret => []
  | .out a => [a]
  | .inp a => [a]
  | .noop => []

end Sys2Proof
end

