-- ==== Sys2Proof/Machine/State.lean ====
section
/-! DEFINITION. The state of the core as plain data (spec/10_state.md R35), the events it emits and
the host answers it takes (spec/48_out_in_input.md), the reset state (R36), and the reasons a step
can answer no next state. -/

namespace Sys2Proof.Machine

/-- The memory: `size` cells (MEM_SIZE), addresses 0 .. size − 1 (spec/20_memory.md R50, R51). Held
sparsely: `cells` lists, by rising address, exactly the cells that are not `Memory.unlisted`. -/
structure Memory where
  size : Nat
  cells : List (Nat × Cell)
  deriving DecidableEq, Repr

/-- What a cell of memory that the list does not name reads as. -/
def Memory.unlisted : Cell := 0

/-- The run status (R31). Code 3 of its two bits never occurs, and has no constructor. -/
inductive Status where
  | running
  | halted
  | faulted
  deriving DecidableEq, Repr

/-- The content of `fault_cause` (R32), by the names of spec/60_exceptions.md R261. -/
inductive FaultCause where
  | noFault
  | invalidOperand
  | invalidDestination
  | stackUnderflow
  | divisionByZero
  | memoryBounds
  | invalidCharacter
  | stackOverflow
  | queueOverflow
  | hostFailure
  deriving DecidableEq, Repr

/-- A `raise F(info)` of the spec's rules: the fatal fault with what it records (R261). -/
inductive Raised where
  /-- A value that must be a number, or a cell that must be a register selector, is not (R263). -/
  | invalidOperand (v : Cell)
  /-- The raw destination cell is invalid (R264). -/
  | invalidDestination (c : Cell)
  /-- `pop` on an empty stack (R265). -/
  | stackUnderflow
  /-- `mod` by a divisor that is 0 modulo 32768 (R266). -/
  | divisionByZero (q : Cell)
  /-- An access at an address at or above MEM_SIZE (R267). -/
  | memoryBounds (addr : Nat)
  /-- `out` of a value above OUT_MAX (R268). -/
  | invalidCharacter (v : Cell)
  /-- A push beyond a bounded STACK_DEPTH (R269). -/
  | stackOverflow (v : Cell)
  /-- Queuing n cells beyond a bounded QUEUE_DEPTH (R269). -/
  | queueOverflow (n : Nat)
  /-- The host answered `Fail` (R271). -/
  | hostFailure
  deriving DecidableEq, Repr

/-- The five parts a save hands over and a load replaces (R35, R244). -/
structure Snapshot where
  mem : Memory
  stack : List Cell
  regs : Vector Cell 8
  pc : Cell
  queue : List Cell
  deriving DecidableEq, Repr

/-- The host's answer to an input-line request (spec/48_out_in_input.md R234 to R240). -/
inductive HostAnswer where
  /-- The bytes of a line, without its terminator (R236). -/
  | line (bytes : List Cell)
  /-- The line was `save` (R237). -/
  | save
  /-- The line was `load`, with the saved snapshot (R238). -/
  | load (s : Snapshot)
  /-- The line was not ASCII (R239). -/
  | reject
  /-- The host could not save or load (R240). -/
  | fail
  deriving DecidableEq, Repr

/-- Why a diagnostic was emitted; the spec names one reason (R270). -/
inductive DiagKind where
  | unknownOpcode
  deriving DecidableEq, Repr

/-- One event of a run's trace (spec/00_scope.md R9): the outputs, and the host's requests and
answers. -/
inductive Event where
  /-- `OutChar(v)` (R231). -/
  | outChar (v : Cell)
  /-- `Diag(kind, pc, raw)` (R270). -/
  | diag (kind : DiagKind) (pc raw : Cell)
  /-- `LineRequest` (R235). -/
  | lineRequest
  /-- The answer the request got (R235). -/
  | hostAnswer (r : HostAnswer)
  /-- The snapshot handed to the host on the answer `Save` (R237). -/
  | handOver (s : Snapshot)
  deriving DecidableEq, Repr

/-- The whole state. `mem` to `faultInfo` are the spec's own (R35); `config` holds the machine's
parameters (R6), which no step writes; `answers` and `trace` are the model's own fields: the host
answers still to come (R235) and the events emitted so far, oldest first (R9). -/
structure State where
  /-- The parameters of this machine (R6). -/
  config : Config
  /-- The one memory, code and data (R50). -/
  mem : Memory
  /-- The registers x[0] .. x[7] (R20). -/
  regs : Vector Cell 8
  /-- The program counter (R22). -/
  pc : Cell
  /-- The one stack, its last element the top (R25). -/
  stack : List Cell
  /-- The input queue, its first element the front (R28). -/
  queue : List Cell
  /-- The run status (R31). -/
  status : Status
  /-- `fault_cause` (R32). -/
  faultCause : FaultCause
  /-- `fault_info` (R32). -/
  faultInfo : Cell
  /-- The host answers to come, the next one first (R235). -/
  answers : List HostAnswer
  /-- The events emitted, the oldest first (R9). -/
  trace : List Event
  deriving DecidableEq, Repr

/-- The machine right after reset (R36, R301). The spec's memory is the supplied image; no image is
part of this interface, so the memory is that of the image of 32768 zero cells (DESIGN CHOICE, log
entry 2; `State.construct` of Machine/Ops.lean takes any image). -/
def State.reset : State where
  config := Config.default
  mem := { size := 32768, cells := [] }
  regs := Vector.replicate 8 0
  pc := 0
  stack := []
  queue := []
  status := .running
  faultCause := .noFault
  faultInfo := 0
  answers := []
  trace := []

/-- Reasons a step could end the model's run as a fault of `Host.Outcome`. There is none: the spec
describes the entry of each of its fatal faults (R262), so each is a next state whose status is
Faulted, and a step in Halted or Faulted is a next state too (R129). -/
inductive Fault where
  deriving DecidableEq, Repr

/-- Reasons the model gives a step no meaning. -/
inductive Refusal where
  /-- An instruction without a meaning yet; no arm of exec raises it. Safe. -/
  | notModelled (mnemonic : String)
  /-- Raised by `in` when the host's answer is a `Line` that is none: it carries a cell above 127
  ("a model refuses it", R236) or spells a command the host answers otherwise. Safe: the model
  stops where no legal host goes. -/
  | illegalLine
  /-- Raised by `in` when the host's answer is a `Load` of what no `Save` of a machine with these
  parameters can have handed over (R238). Safe, as above. -/
  | illegalSnapshot
  deriving DecidableEq, Repr

end Sys2Proof.Machine
end

