-- ==== Sys2Proof/Machine/Alu.lean ====
section
/-! DEFINITION. The arithmetic and bitwise unit and the character conversion
(spec/40_operands_alu_step.md R116 to R122). Sums, products and remainders are taken in unbounded
integers and then narrowed. -/

namespace Sys2Proof.Machine

/-- `alu_add(p, q)` (R116). -/
def aluAdd (p q : Cell) : Cell := BitVec.ofNat 16 ((p.toNat + q.toNat) % 32768)

/-- `alu_mul(p, q)` (R117). -/
def aluMul (p q : Cell) : Cell := BitVec.ofNat 16 ((p.toNat * q.toNat) % 32768)

/-- `alu_mod(p, q)` (R118): both operands are reduced first; a divisor that is 0, or 32768 and so
reduced to 0, raises. -/
def aluMod (p q : Cell) : Except Raised Cell :=
  if q.toNat % 32768 = 0 then .error (.divisionByZero q)
  else .ok (BitVec.ofNat 16 ((p.toNat % 32768) % (q.toNat % 32768)))

/-- `alu_and(p, q)` (R119): all 16 bits, no reduction. -/
def aluAnd (p q : Cell) : Cell := p &&& q

/-- `alu_or(p, q)` (R120): all 16 bits, no reduction. -/
def aluOr (p q : Cell) : Cell := p ||| q

/-- `alu_not(p)` (R121): the complement with bit 15 cleared. -/
def aluNot (p : Cell) : Cell := ~~~p &&& 0x7FFF#16

/-- `to_char(v)` (R122) under OUT_MAX. -/
def toChar (outMax : Nat) (v : Cell) : Except Raised Cell :=
  if v.toNat ≤ outMax then .ok v else .error (.invalidCharacter v)

end Sys2Proof.Machine
end

