-- ==== Sys2Proof/WellFormed.lean ====
section
/-! DEFINITION. Which terms of Syntax.lean are instructions the machine can meet: every cell of an
operand is legal (spec/30_encoding.md R88), so the one thing to check is that a term built as an
invalid cell carries a cell of that class (R83). -/

namespace Sys2Proof

/-- An operand whose class is the class of its cell: an invalid one is 32776 or more (R83). -/
def Operand.wf : Operand → Bool
  | .number _ => true
  | .register _ => true
  | .invalid c => decide (32776 ≤ c.toNat)

/-- Every operand of the instruction is of its cell's class. -/
def Instr.wf (i : Instr) : Bool := i.operands.all Operand.wf

end Sys2Proof
end

