-- ==== Sys2Proof/Decode.lean ====
section
/-! DEFINITION. From cells to an instruction and back (spec/30_encoding.md R80 to R88): the
classification of a cell, the decoder, total on every list of cells, and the encoder. -/

namespace Sys2Proof

/-- `classify` (spec/40_operands_alu_step.md R110): the class of a cell by its value alone. The
index of a selector is its bits 2:0 and a number its bits 14:0 (R83). -/
def classify (c : Cell) : Operand :=
  if c.toNat ≤ 32767 then .number (c.setWidth 15)
  else if c.toNat ≤ 32775 then .register (c.setWidth 3).toFin
  else .invalid c

/-- The raw cell of an operand: a number itself, 32768 + i for register i, an invalid cell as it
stands (R83). -/
def Operand.raw : Operand → Cell
  | .number n => n.setWidth 16
  | .register i => BitVec.ofNat 16 (32768 + i.val)
  | .invalid c => c

/-- What the cells at the program counter decode to (R93, R125). -/
inductive Decoded where
  /-- An instruction, and the cells after it. -/
  | instr (i : Instr) (rest : List Cell)
  /-- An opcode cell outside 0..21: a decode error, not a fault (R87). -/
  | unknownOpcode (op : Cell)
  /-- Cell k of the instruction, 0 its opcode, is not there: the fetch goes beyond memory (R125). -/
  | missing (k : Nat)
  deriving DecidableEq, Repr

/-- Format Z: no operand cell (R82). -/
def decodeZ (i : Instr) (cells : List Cell) : Decoded := .instr i cells

/-- Formats V and D: one operand cell (R82). -/
def decode1 (mk : Operand → Instr) : List Cell → Decoded
  | a :: rest => .instr (mk (classify a)) rest
  | [] => .missing 1

/-- Formats DV and VV: two operand cells (R82). -/
def decode2 (mk : Operand → Operand → Instr) : List Cell → Decoded
  | a :: b :: rest => .instr (mk (classify a) (classify b)) rest
  | [_] => .missing 2
  | [] => .missing 1

/-- Format DVV: three operand cells (R82). -/
def decode3 (mk : Operand → Operand → Operand → Instr) : List Cell → Decoded
  | a :: b :: c :: rest => .instr (mk (classify a) (classify b) (classify c)) rest
  | [_, _] => .missing 3
  | [_] => .missing 2
  | [] => .missing 1

/-- The decoder: the whole opcode cell is the code (R81), the code fixes how many operand cells
follow (R84, R86), and a cell outside 0..21 is a decode error that reads no operand (R87). -/
def decode : List Cell → Decoded
  | [] => .missing 0
  | op :: cells =>
    match op.toNat with
    | 0 => decodeZ .halt cells
    | 1 => decode2 .set cells
    | 2 => decode1 .push cells
    | 3 => decode1 .pop cells
    | 4 => decode3 .eq cells
    | 5 => decode3 .gt cells
    | 6 => decode1 .jmp cells
    | 7 => decode2 .jt cells
    | 8 => decode2 .jf cells
    | 9 => decode3 .add cells
    | 10 => decode3 .mult cells
    | 11 => decode3 .mod cells
    | 12 => decode3 .and cells
    | 13 => decode3 .or cells
    | 14 => decode2 .not cells
    | 15 => decode2 .rmem cells
    | 16 => decode2 .wmem cells
    | 17 => decode1 .call cells
    | 18 => decodeZ .ret cells
    | 19 => decode1 .out cells
    | 20 => decode1 .inp cells
    | 21 => decodeZ .noop cells
    | _ => .unknownOpcode op

/-- The code of an instruction (R84, column "Code"). -/
def Instr.code : Instr → Cell
  | .halt => 0
  | .set _ _ => 1
  | .push _ => 2
  | .pop _ => 3
  | .eq _ _ _ => 4
  | .gt _ _ _ => 5
  | .jmp _ => 6
  | .jt _ _ => 7
  | .jf _ _ => 8
  | .add _ _ _ => 9
  | .mult _ _ _ => 10
  | .mod _ _ _ => 11
  | .and _ _ _ => 12
  | .or _ _ _ => 13
  | .not _ _ => 14
  | .rmem _ _ => 15
  | .wmem _ _ => 16
  | .call _ => 17
  | .ret => 18
  | .out _ => 19
  | .inp _ => 20
  | .noop => 21

/-- The length of an instruction in cells, 1 + arity (R86). -/
def Instr.length (i : Instr) : Nat := 1 + i.operands.length

/-- The encoder: the opcode cell, then the operand cells in their order (R80, R82). -/
def encode (i : Instr) : List Cell := i.code :: i.operands.map Operand.raw

/-- The four cells of a word whose bits are numbered as spec/opcode_table.json numbers them: bit 0
is bit 0 of the opcode cell, cell k has bits 16k + 15 .. 16k; every bit from `nbits` on is 0. -/
def cellsOfTableWord (nbits w : Nat) : List Cell :=
  let v := w % 2 ^ nbits
  [BitVec.ofNat 16 v, BitVec.ofNat 16 (v / 2 ^ 16), BitVec.ofNat 16 (v / 2 ^ 32),
    BitVec.ofNat 16 (v / 2 ^ 48)]

/-- The instruction the decoder reads from such a word, none where it refuses. -/
def decodeTableWord (nbits w : Nat) : Option Instr :=
  match decode (cellsOfTableWord nbits w) with
  | .instr i _ => some i
  | .unknownOpcode _ => none
  | .missing _ => none

end Sys2Proof
end

