-- ==== Sys2Proof/Machine/Ops.lean ====
section
/-! DEFINITION. The named operations over the state: the codes of the status registers, taking a
fault, memory, registers, the stack, the input queue, the program counter, the trace, the snapshot
and the construction of a machine from an image. -/

namespace Sys2Proof.Machine

/-! ### The status registers and taking a fault -/

/-- The 2-bit code of the run status (R31). -/
def Status.code : Status → BitVec 2
  | .running => 0
  | .halted => 1
  | .faulted => 2

/-- The 4-bit code of a fault cause (R261). -/
def FaultCause.code : FaultCause → BitVec 4
  | .noFault => 0
  | .invalidOperand => 1
  | .invalidDestination => 2
  | .stackUnderflow => 3
  | .divisionByZero => 4
  | .memoryBounds => 5
  | .invalidCharacter => 6
  | .stackOverflow => 7
  | .queueOverflow => 8
  | .hostFailure => 9

/-- The cause a raise records (R261, column "Name"). -/
def Raised.cause : Raised → FaultCause
  | .invalidOperand _ => .invalidOperand
  | .invalidDestination _ => .invalidDestination
  | .stackUnderflow => .stackUnderflow
  | .divisionByZero _ => .divisionByZero
  | .memoryBounds _ => .memoryBounds
  | .invalidCharacter _ => .invalidCharacter
  | .stackOverflow _ => .stackOverflow
  | .queueOverflow _ => .queueOverflow
  | .hostFailure => .hostFailure

/-- The value a raise records (R261, column "fault_info"). The register has 16 bits: a count of
queued cells beyond 65535 keeps its low 16 bits (DESIGN CHOICE, log entry 11). -/
def Raised.info : Raised → Cell
  | .invalidOperand v => v
  | .invalidDestination c => c
  | .stackUnderflow => 0
  | .divisionByZero q => q
  | .memoryBounds addr => BitVec.ofNat 16 addr
  | .invalidCharacter v => v
  | .stackOverflow v => v
  | .queueOverflow n => BitVec.ofNat 16 n
  | .hostFailure => 0

/-- Taking a fault (R262): the status, its cause and its value are written and nothing else; the pc
stays at the faulting opcode and control goes nowhere. There is no return from a fault (R275). -/
def State.raise (s : State) (r : Raised) : State :=
  { s with status := .faulted, faultCause := r.cause, faultInfo := r.info }

/-- The end of a rule begun in `s`: its next state, or the fault it raised, taken in `s` itself, so
that a step that raises has written nothing else (R8, R262). -/
def finish (s : State) : Except Raised State → Host.Outcome State Fault Refusal
  | .ok t => .next t
  | .error r => .next (s.raise r)

/-! ### Memory -/

/-- The cell a sparse list of cells gives an address. -/
def Memory.lookup : List (Nat × Cell) → Nat → Cell
  | [], _ => Memory.unlisted
  | p :: rest, a => if p.1 = a then p.2 else Memory.lookup rest a

/-- A cell put in its place in a list that rises by address. -/
def Memory.insertCell (a : Nat) (v : Cell) : List (Nat × Cell) → List (Nat × Cell)
  | [] => [(a, v)]
  | p :: rest => if a < p.1 then (a, v) :: p :: rest else p :: Memory.insertCell a v rest

/-- A sparse list with the cell at `a` replaced by `v`; an unlisted value takes the entry out. -/
def Memory.storeCell (cells : List (Nat × Cell)) (a : Nat) (v : Cell) : List (Nat × Cell) :=
  let others := cells.filter fun p => p.1 ≠ a
  if v = Memory.unlisted then others else Memory.insertCell a v others

/-- The cell at address `a`, none at or above MEM_SIZE (R52). -/
def Memory.read (m : Memory) (a : Nat) : Option Cell :=
  if a < m.size then some (Memory.lookup m.cells a) else none

/-- The memory with the cell at `a` replaced (R53). -/
def Memory.write (m : Memory) (a : Nat) (v : Cell) : Memory :=
  { m with cells := Memory.storeCell m.cells a v }

/-- The cells at `a`, `a + 1`, … as far as memory goes, at most `n` of them. -/
def Memory.readFrom (m : Memory) (a : Nat) : Nat → List Cell
  | 0 => []
  | n + 1 =>
    match m.read a with
    | some c => c :: m.readFrom (a + 1) n
    | none => []

/-- The canonical form of a memory of a legal size (R51): addresses rise strictly and exist, and no
listed cell is what an unlisted one reads as. -/
def Memory.wf (m : Memory) : Bool :=
  decide (1 ≤ m.size ∧ m.size ≤ 32768 ∧ (m.cells.Pairwise fun p q => p.1 < q.1) ∧
    ∀ p ∈ m.cells, p.1 < m.size ∧ p.2 ≠ Memory.unlisted)

/-- The sparse list of the cells of an image part whose first cell has address `a`. -/
def Memory.listImage (a : Nat) : List Cell → List (Nat × Cell)
  | [] => []
  | c :: rest =>
    if c = Memory.unlisted then Memory.listImage (a + 1) rest
    else (a, c) :: Memory.listImage (a + 1) rest

/-- The memory an image is loaded into: cell a of the image at address a, no other cell (R302). -/
def Memory.ofImage (image : List Cell) : Memory where
  size := image.length
  cells := Memory.listImage 0 image

/-- `MemRead(a, 1)` (R52). -/
def memRead (s : State) (a : Nat) : Except Raised Cell :=
  match s.mem.read a with
  | some c => .ok c
  | none => .error (.memoryBounds a)

/-- `MemWrite(a, 1, v)` (R53): all 16 bits, unchanged. -/
def memWrite (a : Nat) (v : Cell) (s : State) : Except Raised State :=
  if a < s.mem.size then .ok { s with mem := s.mem.write a v }
  else .error (.memoryBounds a)

/-! ### Registers -/

/-- `x[i]` (R20). -/
def State.reg (s : State) (i : Fin 8) : Cell := s.regs[i]

/-- `x[i] <- v`: no masking, no classification of v (R8, R21, R131). -/
def State.setReg (s : State) (i : Fin 8) (v : Cell) : State :=
  { s with regs := s.regs.set i v }

/-! ### The stack and the input queue -/

/-- Whether `n` entries fit a capacity; any number fits an unbounded one (R26, R29). -/
def fits : Option Nat → Nat → Bool
  | none, _ => true
  | some depth, n => decide (n ≤ depth)

/-- `Push(v)` (R26). -/
def push (v : Cell) (s : State) : Except Raised State :=
  if fits s.config.stackDepth (s.stack.length + 1) then .ok { s with stack := s.stack ++ [v] }
  else .error (.stackOverflow v)

/-- `Pop()` (R27): the top of the stack and the state without it; none when the stack is empty,
which each user treats in its own way. -/
def pop (s : State) : Option (Cell × State) :=
  match s.stack.getLast? with
  | some v => some (v, { s with stack := s.stack.dropLast })
  | none => none

/-- `Enqueue(s)` (R29): the cells are appended at the back in their order. -/
def enqueue (cells : List Cell) (s : State) : Except Raised State :=
  if fits s.config.queueDepth (s.queue.length + cells.length) then
    .ok { s with queue := s.queue ++ cells }
  else .error (.queueOverflow cells.length)

/-- `Dequeue()` (R30): the front of the queue and the state without it; none when it is empty. -/
def dequeue (s : State) : Option (Cell × State) :=
  match s.queue with
  | ch :: later => some (ch, { s with queue := later })
  | [] => none

/-! ### The program counter, the status and the trace -/

/-- `pc <- pc + n` (R23, R127). -/
def State.advance (s : State) (n : Nat) : State := { s with pc := s.pc + BitVec.ofNat 16 n }

/-- `pc <- t` (R8). -/
def State.jump (s : State) (t : Cell) : State := { s with pc := t }

/-- `status <- Halted` (R31). -/
def State.stop (s : State) : State := { s with status := .halted }

/-- `emit e` (R8, R9). -/
def State.emit (s : State) (e : Event) : State := { s with trace := s.trace ++ [e] }

/-! ### The host's answers and the snapshot -/

/-- The `LineRequest` of an `in` on an empty queue (R235). One request is one event: while the
request before is unanswered, asking again emits nothing (DEDUCED, log entry 7). -/
def State.request (s : State) : State :=
  if s.trace.getLast? = some .lineRequest then s else s.emit .lineRequest

/-- The host's answer `r` taken, `later` still to come. -/
def State.take (s : State) (r : HostAnswer) (later : List HostAnswer) : State :=
  { s.emit (.hostAnswer r) with answers := later }

/-- The snapshot of a state (R237, R244). -/
def State.snapshot (s : State) : Snapshot where
  mem := s.mem
  stack := s.stack
  regs := s.regs
  pc := s.pc
  queue := s.queue

/-- The five parts replaced by a snapshot's (R238); what was emitted is not retracted (R35). -/
def State.restore (s : State) (p : Snapshot) : State :=
  { s with mem := p.mem, stack := p.stack, regs := p.regs, pc := p.pc, queue := p.queue }

/-- The well-formedness a `Load` answer owes this machine (R238, decision D16), but for the room in
the queue, which `Enqueue` tests and answers with its own fault (R29; DEDUCED, log entry 9). -/
def Snapshot.legal (p : Snapshot) (s : State) : Bool :=
  p.mem.wf && decide (p.mem.size = s.mem.size) && decide (p.pc.toNat ≤ 32771) &&
    fits s.config.stackDepth p.stack.length

/-- The line `look` and its newline, queued by a load (R238). -/
def lookLine : List Cell := [108, 111, 111, 107, 10]

/-- A legal `Line` answer (R236): every cell is ASCII, and the line is neither of the two commands,
`save` (115 97 118 101) and `load` (108 111 97 100), which are answered as such (R243; log
entry 8). -/
def legalLine (bytes : List Cell) : Bool :=
  bytes.all (fun b => decide (b.toNat ≤ 127)) &&
    decide (bytes ≠ [115, 97, 118, 101]) && decide (bytes ≠ [108, 111, 97, 100])

/-! ### Construction -/

/-- Reset (R300, R301, R302): the machine with parameters `config` constructed from an image; none
where the spec refuses the image, whose length must be 1 .. 32768. -/
def State.construct (config : Config) (image : List Cell) : Option State :=
  if 1 ≤ image.length ∧ image.length ≤ 32768 then
    some { State.reset with config := config, mem := Memory.ofImage image }
  else none

end Sys2Proof.Machine
end

