-- ==== Sys2Proof/Machine/Operands.lean ====
section
/-! DEFINITION. Operand resolution (spec/40_operands_alu_step.md R111 to R115, R130, R131): what
an operand gives in each position, and what an instruction with a destination does with its
result. -/

namespace Sys2Proof.Machine

/-- `Num(v)` (R111): applied to a resolved value. -/
def asNumber (v : Cell) : Except Raised Cell :=
  if v.toNat ≤ 32767 then .ok v else .error (.invalidOperand v)

/-- `RegIdx(c)` (R112): applied to the raw operand; its one user is `set`. -/
def asRegister : Operand → Except Raised (Fin 8)
  | .register i => .ok i
  | .number n => .error (.invalidOperand (Operand.number n).raw)
  | .invalid c => .error (.invalidOperand c)

/-- `val(k)` (R114): a register's content, looked up once (R130); any other cell itself, an invalid
one too. -/
def value (s : State) : Operand → Cell
  | .number n => (Operand.number n).raw
  | .register i => s.reg i
  | .invalid c => c

/-- `CheckDest(c)` (R115). -/
def checkDest (s : State) : Operand → Except Raised Unit
  | .register _ => .ok ()
  | .number n => if n.toNat < s.mem.size then .ok () else .error (.memoryBounds n.toNat)
  | .invalid c => .error (.invalidDestination c)

/-- `WriteDest(c, v)` (R115): the operand's own class says where the write lands; a destination is
never resolved through a register. The value is stored unchanged (R131). -/
def writeDest (a : Operand) (v : Cell) (s : State) : Except Raised State :=
  match a with
  | .register i => .ok (s.setReg i v)
  | .number n => memWrite n.toNat v s
  | .invalid c => .error (.invalidDestination c)

/-- What every instruction that computes a result into a destination does (R126, R127, R272): the
destination is checked, then the result computed, which may raise, then written, and the pc
advanced past the `len` cells of the instruction. -/
def storeResult (a : Operand) (result : Except Raised Cell) (len : Nat) (s : State) :
    Host.Outcome State Fault Refusal :=
  finish s do
    checkDest s a
    let v ← result
    let t ← writeDest a v s
    return t.advance len

/-- `pc <- Num(v)` (R180): a redirect to a resolved target, which must be a number. -/
def jumpTo (v : Cell) (s : State) : Except Raised State := do
  let t ← asNumber v
  return s.jump t

end Sys2Proof.Machine
end

