-- ==== Sys2Proof/Machine/Arith.lean ====
section
/-! DEFINITION. add, mult, mod, and, or and not (spec/45_arith_bitwise.md). -/

namespace Sys2Proof.Machine

/-- `add a b c` (R190). -/
def execAdd (a b c : Operand) (s : State) : Host.Outcome State Fault Refusal :=
  storeResult a (.ok (aluAdd (value s b) (value s c))) 4 s

/-- `mult a b c` (R191). -/
def execMult (a b c : Operand) (s : State) : Host.Outcome State Fault Refusal :=
  storeResult a (.ok (aluMul (value s b) (value s c))) 4 s

/-- `mod a b c` (R192): a bad destination is reported before a zero divisor (R272). -/
def execMod (a b c : Operand) (s : State) : Host.Outcome State Fault Refusal :=
  storeResult a (aluMod (value s b) (value s c)) 4 s

/-- `and a b c` (R193). -/
def execAnd (a b c : Operand) (s : State) : Host.Outcome State Fault Refusal :=
  storeResult a (.ok (aluAnd (value s b) (value s c))) 4 s

/-- `or a b c` (R194). -/
def execOr (a b c : Operand) (s : State) : Host.Outcome State Fault Refusal :=
  storeResult a (.ok (aluOr (value s b) (value s c))) 4 s

/-- `not a b` (R195). -/
def execNot (a b : Operand) (s : State) : Host.Outcome State Fault Refusal :=
  storeResult a (.ok (aluNot (value s b))) 3 s

end Sys2Proof.Machine
end

