-- ==== Sys2Proof/Machine/CallRet.lean ====
section
/-! DEFINITION. call and ret (spec/47_call_ret.md). -/

namespace Sys2Proof.Machine

/-- `call a` (R220): the target is resolved and checked before the push; the return address is
pc + 2 as a 16-bit cell, not reduced modulo 32768. -/
def execCall (a : Operand) (s : State) : Host.Outcome State Fault Refusal :=
  finish s do
    let t ← asNumber (value s a)
    let u ← push (s.pc + 2) s
    return u.jump t

/-- `ret` (R221): the top of the stack is checked before it is popped; an empty stack halts, with
the pc of the general advance rule (R127, log entry 14). -/
def execRet (s : State) : Host.Outcome State Fault Refusal :=
  match pop s with
  | none => .next (s.stop.advance 1)
  | some (v, rest) => finish s (jumpTo v rest)

end Sys2Proof.Machine
end

