-- ==== Sys2Proof/Machine/Flags.lean ====
section
/-! DEFINITION. The core has no flags, condition codes or predicate registers
(spec/10_state.md R33). What other machines set flags for, a comparison answers as a value
(spec/40_operands_alu_step.md R123), and a conditional jump tests a value against 0. -/

namespace Sys2Proof.Machine

/-- `cmp_eq(p, q)`: 1 if the raw 16-bit values are equal, else 0 (R123). -/
def cmpEq (p q : Cell) : Cell := if p = q then 1 else 0

/-- `cmp_gt(p, q)`: 1 if p > q as unsigned 16-bit integers, else 0 (R123). -/
def cmpGt (p q : Cell) : Cell := if p.toNat > q.toNat then 1 else 0

end Sys2Proof.Machine
end

