-- ==== Sys2Proof/Machine/Compare.lean ====
section
/-! DEFINITION. eq and gt (spec/43_compare.md). -/

namespace Sys2Proof.Machine

/-- `eq a b c` (R170). -/
def execEq (a b c : Operand) (s : State) : Host.Outcome State Fault Refusal :=
  storeResult a (.ok (cmpEq (value s b) (value s c))) 4 s

/-- `gt a b c` (R171). -/
def execGt (a b c : Operand) (s : State) : Host.Outcome State Fault Refusal :=
  storeResult a (.ok (cmpGt (value s b) (value s c))) 4 s

end Sys2Proof.Machine
end

