-- ==== Sys2Proof/Machine/Control.lean ====
section
/-! DEFINITION. halt and noop (spec/41_halt_noop.md). -/

namespace Sys2Proof.Machine

/-- `halt` (R150). The pc it leaves is by the general advance rule (R127, log entry 14). -/
def execHalt (s : State) : Host.Outcome State Fault Refusal := .next (s.stop.advance 1)

/-- `noop` (R151). -/
def execNoop (s : State) : Host.Outcome State Fault Refusal := .next (s.advance 1)

end Sys2Proof.Machine
end

