-- ==== Sys2Proof/Machine/InOut.lean ====
section
/-! DEFINITION. out and in, and the core's side of the host's answers
(spec/48_out_in_input.md). -/

namespace Sys2Proof.Machine

/-- `out a` (R230): a value that is no character emits nothing. -/
def execOut (a : Operand) (s : State) : Host.Outcome State Fault Refusal :=
  finish s do
    let ch ← toChar s.config.outMax (value s a)
    return (s.emit (.outChar ch)).advance 2

/-- The end of `in` (R232): the front of the queue is delivered to the destination and the pc
advanced; with the queue empty nothing is written and the pc stays (R233). -/
def deliver (a : Operand) (s : State) : Except Raised State :=
  match dequeue s with
  | some (ch, rest) => do
    let t ← writeDest a ch rest
    return t.advance 2
  | none => .ok s

/-- What the answer `r` to a line request does (R236 to R240), `s` the state with the answer taken.
A load ends the step: the `in` at the restored pc delivers in a later one (R238). -/
def answer (a : Operand) (r : HostAnswer) (s : State) : Host.Outcome State Fault Refusal :=
  match r with
  | .line bytes =>
    if legalLine bytes then
      finish s do
        let t ← enqueue (bytes ++ [10]) s
        deliver a t
    else .refused .illegalLine
  | .save => .next (s.emit (.handOver s.snapshot))
  | .load p =>
    if p.legal s then finish s (enqueue lookLine (s.restore p)) else .refused .illegalSnapshot
  | .reject => .next s
  | .fail => .next (s.raise .hostFailure)

/-- The line request of an `in` on an empty queue (R234, R235). Without an answer the core is held:
the state stays as it is but for the request's event (R241; DEDUCED, log entry 7). -/
def ask (a : Operand) (s : State) : Host.Outcome State Fault Refusal :=
  match s.answers with
  | [] => .next s.request
  | r :: later => answer a r (s.request.take r later)

/-- `in a` (R232): the destination is checked before the host is asked, and the host is asked only
when the queue is empty. -/
def execInp (a : Operand) (s : State) : Host.Outcome State Fault Refusal :=
  match checkDest s a with
  | .error r => .next (s.raise r)
  | .ok _ =>
    match s.queue with
    | [] => ask a s
    | _ :: _ => finish s (deliver a s)

end Sys2Proof.Machine
end

