-- ==== Sys2Proof/Machine/Jumps.lean ====
section
/-! DEFINITION. jmp, jt and jf (spec/44_jumps.md). -/

namespace Sys2Proof.Machine

/-- `jmp a` (R180). -/
def execJmp (a : Operand) (s : State) : Host.Outcome State Fault Refusal :=
  finish s (jumpTo (value s a) s)

/-- `jt a b` (R181): the target is looked at only when the jump is taken. -/
def execJt (a b : Operand) (s : State) : Host.Outcome State Fault Refusal :=
  finish s (if value s a ≠ 0 then jumpTo (value s b) s else .ok (s.advance 3))

/-- `jf a b` (R182). -/
def execJf (a b : Operand) (s : State) : Host.Outcome State Fault Refusal :=
  finish s (if value s a = 0 then jumpTo (value s b) s else .ok (s.advance 3))

end Sys2Proof.Machine
end

