-- ==== Sys2Proof/Machine/LoadStore.lean ====
section
/-! DEFINITION. rmem and wmem (spec/46_rmem_wmem.md). -/

namespace Sys2Proof.Machine

/-- The cell at a resolved address, which must be a number (R210). -/
def loadCell (addr : Cell) (s : State) : Except Raised Cell := do
  let a ← asNumber addr
  memRead s a.toNat

/-- `rmem a b` (R210): the address is resolved once and the cell read is stored raw. -/
def execRmem (a b : Operand) (s : State) : Host.Outcome State Fault Refusal :=
  storeResult a (loadCell (value s b) s) 3 s

/-- `wmem a b` (R211): the first operand is a value, the address, not a destination. -/
def execWmem (a b : Operand) (s : State) : Host.Outcome State Fault Refusal :=
  finish s do
    let addr ← asNumber (value s a)
    let t ← memWrite addr.toNat (value s b) s
    return t.advance 3

end Sys2Proof.Machine
end

