-- ==== Sys2Proof/Machine/SetStack.lean ====
section
/-! DEFINITION. set, push and pop (spec/42_set_push_pop.md). -/

namespace Sys2Proof.Machine

/-- `set a b` (R160): a must be a register selector. -/
def execSet (a b : Operand) (s : State) : Host.Outcome State Fault Refusal :=
  finish s do
    let i ← asRegister a
    return (s.setReg i (value s b)).advance 3

/-- `push a` (R161). -/
def execPush (a : Operand) (s : State) : Host.Outcome State Fault Refusal :=
  finish s do
    let t ← push (value s a) s
    return t.advance 2

/-- `pop a` (R162): the empty stack is reported before a bad destination (R272). -/
def execPop (a : Operand) (s : State) : Host.Outcome State Fault Refusal :=
  finish s do
    match pop s with
    | none => .error .stackUnderflow
    | some (v, rest) =>
      checkDest s a
      let t ← writeDest a v rest
      return t.advance 2

end Sys2Proof.Machine
end

