-- ==== Sys2Proof/Machine/Fetch.lean ====
section
/-! DEFINITION. The fetch of an instruction's cells, the decode-error skip, and what a decoded step
does (spec/40_operands_alu_step.md R125, R126; spec/60_exceptions.md R270). -/

namespace Sys2Proof.Machine

/-- The cells at pc, pc + 1, pc + 2, pc + 3 as far as memory goes: the longest instruction has four
(R80). A read has no effect, so reading past a shorter instruction is nothing (R52). -/
def fetchCells (s : State) : List Cell := s.mem.readFrom s.pc.toNat 4

/-- A decode error (R270): one diagnostic with the pc and the raw cell, and the pc moves by 1. -/
def skipUnknown (op : Cell) (s : State) : State :=
  (s.emit (.diag .unknownOpcode s.pc op)).advance 1

/-- What a Running step does with what it decoded (R125): it executes the instruction, skips the
unknown opcode, or raises MemoryBounds(pc + k) for the first cell it could not fetch. -/
def runDecoded (s : State) : Decoded → Host.Outcome State Fault Refusal
  | .instr i _ => exec i s
  | .unknownOpcode op => .next (skipUnknown op s)
  | .missing k => .next (s.raise (.memoryBounds (s.pc.toNat + k)))

/-- A memory with cells placed at `a`, `a + 1`, … where those addresses exist. -/
def placeCells (m : Memory) (a : Nat) : List Cell → Memory
  | [] => m
  | c :: rest => placeCells (if a < m.size then m.write a c else m) (a + 1) rest

end Sys2Proof.Machine
end

