-- ==== Sys2Proof/Machine/Step.lean ====
section
/-! DEFINITION. One step of the machine (spec/40_operands_alu_step.md R125, R129). -/

namespace Sys2Proof.Machine

/-- One fetch-decode-execute cycle while Running; in Halted and Faulted a step changes nothing and
emits nothing (R125, R129). -/
def step (s : State) : Host.Outcome State Fault Refusal :=
  match s.status with
  | .running => runDecoded s (decode (fetchCells s))
  | .halted => .next s
  | .faulted => .next s

/-- `s` with an instruction's cells, numbered as spec/opcode_table.json numbers its bits, stored
where the next step fetches: at pc .. pc + 3, as far as addresses below 32768 go. A smaller memory
is made to reach that far, and a machine that has stopped is set Running with the cleared cause of
that status (R32), so that the next step runs the instruction (log entry 3). -/
def State.withFetchWord (s : State) (nbits w : Nat) : State :=
  let size := max s.mem.size (min 32768 (s.pc.toNat + 4))
  { s with
    mem := placeCells { s.mem with size := size } s.pc.toNat (cellsOfTableWord nbits w)
    status := .running
    faultCause := .noFault
    faultInfo := 0 }

end Sys2Proof.Machine
end

