-- ==== Sys2Proof/Safety.lean ====
section
/-! DEFINITION. What counts as a good run and a legal state, and the terms the statements use: how
a run ends (spec/70_reset_and_hazards.md R305), the invariant of the machine, and what an
instruction changes and leaves. -/

namespace Sys2Proof.Machine

/-- The good end of a run (R305). -/
abbrev State.finished (s : State) : Prop := s.status = .halted

/-- A run is over when the status is no longer Running (R305); a Faulted one is not finished. -/
abbrev State.over (s : State) : Prop := s.status ≠ .running

/-- The states the spec's machine can be in. -/
structure State.Inv (s : State) : Prop where
  /-- MEM_SIZE is 1 .. 32768 and the memory is in its canonical form (R51). -/
  mem : s.mem.wf = true
  /-- pc is always in 0 .. 32771 (R22, R24). -/
  pc : s.pc.toNat ≤ 32771
  /-- A cause is recorded exactly in the status Faulted (R31, R32). -/
  cause : s.status = .faulted ↔ s.faultCause ≠ .noFault
  /-- Without a cause fault_info reads 0 (R32). -/
  info : s.faultCause = .noFault → s.faultInfo = 0
  /-- The stack is within STACK_DEPTH (R26). -/
  stack : fits s.config.stackDepth s.stack.length = true
  /-- The queue is within QUEUE_DEPTH (R29). -/
  queue : fits s.config.queueDepth s.queue.length = true

/-- The state a fault leaves (R262): three fields written, every other as in `s`. -/
def State.faultedWith (s : State) (cause : FaultCause) (info : Cell) : State :=
  { s with status := .faulted, faultCause := cause, faultInfo := info }

/-- Everything but memory, registers and pc is the same in `t` as in `s`. -/
structure SameRest (s t : State) : Prop where
  config : t.config = s.config
  stack : t.stack = s.stack
  queue : t.queue = s.queue
  status : t.status = s.status
  cause : t.faultCause = s.faultCause
  info : t.faultInfo = s.faultInfo
  answers : t.answers = s.answers
  trace : t.trace = s.trace

/-- A destination that is accepted (R115): a register, or an address below MEM_SIZE. -/
def Accepts (s : State) : Operand → Prop
  | .register _ => True
  | .number n => n.toNat < s.mem.size
  | .invalid _ => False

/-- Registers and memory of `t` are those of `s` with `v` in the destination `a` and nothing else
changed: the register alone, or the one memory cell alone (R115). -/
def Wrote (s t : State) (a : Operand) (v : Cell) : Prop :=
  match a with
  | .register i =>
    t.reg i = v ∧ (∀ j, j ≠ i → t.reg j = s.reg j) ∧
      ∀ addr, t.mem.read addr = s.mem.read addr
  | .number n =>
    t.mem.read n.toNat = some v ∧ (∀ addr, addr ≠ n.toNat → t.mem.read addr = s.mem.read addr) ∧
      ∀ j, t.reg j = s.reg j
  | .invalid _ => False

/-- What a destination that is not accepted does (R115, R264, R267): the fault, and no other
effect. -/
def RefusesDest (i : Instr) (s : State) : Operand → Prop
  | .register _ => True
  | .number n => s.mem.size ≤ n.toNat →
      exec i s = .next (s.faultedWith .memoryBounds (n.setWidth 16))
  | .invalid c => exec i s = .next (s.faultedWith .invalidDestination c)

/-- Instruction `i` of `len` cells puts `v` into the destination `a` and does nothing else: where
the destination is accepted it answers a next state with `v` written there, the pc advanced and
all else as before; where it is not, it takes the destination's fault. -/
def PutsResult (i : Instr) (s : State) (a : Operand) (v : Cell) (len : Nat) : Prop :=
  (Accepts s a → ∃ t, exec i s = .next t ∧ Wrote s t a v ∧
    t.pc = s.pc + BitVec.ofNat 16 len ∧ SameRest s t) ∧
  RefusesDest i s a

/-- Whether `n` entries are within a capacity, none being unbounded (R26, R29). -/
def Room (depth : Option Nat) (n : Nat) : Prop := ∀ d, depth = some d → n ≤ d

/-- The trace once the host has answered `r` to the request of an `in`: the request's event, if it
was not already out, then the answer (R235). -/
def answeredTrace (s : State) (r : HostAnswer) : List Event :=
  (if s.trace.getLast? = some .lineRequest then s.trace else s.trace ++ [.lineRequest]) ++
    [.hostAnswer r]

/-- An event of the core's outputs: a character or a diagnostic (R10). -/
def Event.isOutput : Event → Bool
  | .outChar _ => true
  | .diag _ _ _ => true
  | .lineRequest => false
  | .hostAnswer _ => false
  | .handOver _ => false

/-- The character output of a trace, in order (R231). -/
def outChars (trace : List Event) : List Cell :=
  trace.filterMap fun e =>
    match e with
    | .outChar v => some v
    | .diag _ _ _ => none
    | .lineRequest => none
    | .hostAnswer _ => none
    | .handOver _ => none

end Sys2Proof.Machine
end

