-- ==== Sys2Proof/Certificates/Slice0/Obligations.lean ====
section
/-! DEFINITION. The statements for the provers, from the numbered rules of spec/. Where a clause
rests on a decision the spec marks as its own (D<n> of spec/92_eei_decisions.md) or on a choice of
this model (a log entry of notes/assumptions/), the docstring says so. -/

open Sys2Proof Sys2Proof.Machine

/-! ### Encoding -/

/-- R110: the three classes of a cell and what each carries. -/
def Obligations.ClassifyPartitionsCells : Prop :=
  ∀ c : Cell,
    (c.toNat ≤ 32767 → ∃ n, classify c = .number n ∧ n.toNat = c.toNat) ∧
    (32768 ≤ c.toNat → c.toNat ≤ 32775 →
      ∃ i, classify c = .register i ∧ i.val = c.toNat - 32768) ∧
    (32776 ≤ c.toNat → classify c = .invalid c)

/-- Words written out from the opcode table of R84 and the formats of R82 decode to the
instructions they stand for, one word at least of each of the six formats of R82; the first two
are the listing quoted in R91. -/
def Obligations.DecodeReadsSpecWords : Prop :=
  decode [9, 32768, 32769, 4] = .instr (.add (.register 0) (.register 1) (.number 4)) [] ∧
  decode [19, 32768, 0] = .instr (.out (.register 0)) [0] ∧
  decode [1, 32775, 40000] = .instr (.set (.register 7) (.invalid 40000)) [] ∧
  decode [16, 100, 32770] = .instr (.wmem (.number 100) (.register 2)) [] ∧
  decode [4, 32776, 0, 65535] = .instr (.eq (.invalid 32776) (.number 0) (.invalid 65535)) [] ∧
  decode [3, 100] = .instr (.pop (.number 100)) [] ∧
  decode [18] = .instr .ret [] ∧
  decode [32789, 0] = .unknownOpcode 32789 ∧
  decode [7, 0] = .missing 2

/-- For every well-formed instruction the decoder reads back what the encoder wrote, every operand
at every value, and leaves the cells after it (R80, R82, R84, R86). -/
def Obligations.DecodeEncodeRoundTrip : Prop :=
  ∀ (i : Instr) (rest : List Cell), i.wf = true → decode (encode i ++ rest) = .instr i rest

/-- The other direction: cells that decode to an instruction are that instruction's own encoding,
and the instruction is well formed, so no cell is ignored (R81, R83). -/
def Obligations.EncodeDecodeExact : Prop :=
  ∀ (cells : List Cell) (i : Instr) (rest : List Cell),
    decode cells = .instr i rest → cells = encode i ++ rest ∧ i.wf = true

/-- An opcode cell is refused exactly when it is above 21, whatever follows it (R81, R87). -/
def Obligations.UnknownOpcodeExactlyAbove21 : Prop :=
  ∀ (op : Cell) (cells : List Cell),
    (22 ≤ op.toNat → decode (op :: cells) = .unknownOpcode op) ∧
    (op.toNat ≤ 21 → ∀ c, decode (op :: cells) ≠ .unknownOpcode c)

/-! ### The step -/

/-- While Running, a step is exec of the instruction the cells at pc decode to; the step adds
nothing around it, each instruction moves the pc itself (R125, R127). -/
def Obligations.StepRunsDecodedInstruction : Prop :=
  ∀ (s : State) (i : Instr) (rest : List Cell), s.status = .running →
    decode (fetchCells s) = .instr i rest → step s = exec i s

/-- The same from the cells of memory: when the cells of a well-formed instruction stand at
pc, pc + 1, …, the step is exec of it, whatever the cells after it are (R113, R125). -/
def Obligations.StepRunsInstructionInMemory : Prop :=
  ∀ (s : State) (i : Instr), s.status = .running → i.wf = true →
    (∀ k, k < i.length → s.mem.read (s.pc.toNat + k) = (encode i)[k]?) →
    step s = exec i s

/-- R87: a step on an opcode cell 22..65535 emits one diagnostic, adds 1 to pc and changes nothing
else; it reads no operand cell, so it does so in the last cell of memory too. That the diagnostic
carries UnknownOpcode, the pc and the raw cell is decision D11 of the spec (R270; log entry 19), and
the trace that holds it is a field of this model's own (log entry 6). -/
def Obligations.StepSkipsUnknownOpcode : Prop :=
  ∀ (s : State) (op : Cell), s.status = .running → s.mem.read s.pc.toNat = some op →
    22 ≤ op.toNat →
    step s = .next { s with
      pc := s.pc + 1
      trace := s.trace ++ [.diag .unknownOpcode s.pc op] }

/-- A fetch beyond memory (R125, R267; decision D1 of the spec): when cell k of an instruction, 0
its opcode, is the first that does not exist, the step raises MemoryBounds(pc + k), used or not
(decision D22); the 16 bits of fault_info take pc + k whole in every legal state (log entry 11). -/
def Obligations.StepFaultsBeyondMemory : Prop :=
  ∀ (s : State) (i : Instr) (k : Nat), s.status = .running → i.wf = true → k < i.length →
    (∀ j, j < k → s.mem.read (s.pc.toNat + j) = (encode i)[j]?) →
    s.mem.read (s.pc.toNat + k) = none →
    step s = .next (s.faultedWith .memoryBounds (BitVec.ofNat 16 (s.pc.toNat + k)))

/-- A step in Halted or Faulted changes nothing and emits nothing (R129, decision D17 of the
spec). -/
def Obligations.StoppedMachineStaysPut : Prop :=
  ∀ s : State, s.over → step s = .next s

/-- A step always answers a next state, but for an `in` that asks the host and is answered what no
legal host answers (R236 and R238 with log entries 8 and 9). R310 says so of a Running machine that
is not at an `in` on an empty queue; the rest is not R310's: that an `in` held without an answer,
which R241 calls unfinished (decision D18 of the spec), is a next state is this model's choice (log
entry 7), that a fault is one rests on decision D4 (log entry 13), and that a stopped machine has a
step on decision D17. -/
def Obligations.StepAnswersUnlessHostIllegal : Prop :=
  ∀ s : State,
    (∃ t, step s = .next t) ∨
    (s.status = .running ∧ s.mem.read s.pc.toNat = some 20 ∧ s.queue = [] ∧
      ((∃ bytes later, s.answers = .line bytes :: later ∧ legalLine bytes = false ∧
          step s = .refused .illegalLine) ∨
       (∃ p later, s.answers = .load p :: later ∧ p.legal s = false ∧
          step s = .refused .illegalSnapshot)))

/-- A store is seen by the next fetch (R62, which the spec derives): when `wmem` writes the cell
the next step fetches, the fetch begins with the value written. -/
def Obligations.StoreSeenByNextFetch : Prop :=
  ∀ (a b : Operand) (s t : State), exec (.wmem a b) s = .next t → t.status = .running →
    value s a = t.pc → (fetchCells t).head? = some (value s b)

/-! ### Whole-machine rules -/

/-- Reset leaves what R36 says: the registers and the status are the source's, pc, stack and queue
decisions D2 and D3 of the spec, the fault registers D4. The size and the cells of the memory are
this model's choice of an image (log entry 2). -/
def Obligations.ResetLeavesSpecValues : Prop :=
  (∀ i, State.reset.reg i = 0) ∧ State.reset.pc = 0 ∧ State.reset.stack = [] ∧
  State.reset.queue = [] ∧ State.reset.status = .running ∧
  State.reset.faultCause.code = 0 ∧ State.reset.faultInfo = 0 ∧
  (∀ a, a < 32768 → State.reset.mem.read a = some 0) ∧ State.reset.mem.read 32768 = none

/-- The invariant holds at reset. -/
def Obligations.ResetMeetsInvariant : Prop := State.reset.Inv

/-- Every step keeps the invariant: the memory stays in canonical form and of legal size, pc stays
in 0..32771, a fault cause is recorded exactly in Faulted, stack and queue stay within their
depths (R24, R26, R29, R31, R32, R51; decisions D1, D4, D12, D13 of the spec). -/
def Obligations.StepKeepsInvariant : Prop :=
  ∀ s t : State, s.Inv → step s = .next t → t.Inv

/-- A machine constructed from an image of 1 to 32768 cells holds it from address 0, has the reset
values and meets the invariant; any other image is refused (R36, R302; decisions D1 to D4 of the
spec). -/
def Obligations.ConstructionLoadsImage : Prop :=
  ∀ (config : Config) (image : List Cell),
    (1 ≤ image.length → image.length ≤ 32768 →
      ∃ s, State.construct config image = some s ∧ s.mem.size = image.length ∧
        (∀ a, s.mem.read a = image[a]?) ∧ (∀ i, s.reg i = 0) ∧ s.pc = 0 ∧ s.stack = [] ∧
        s.queue = [] ∧ s.status = .running ∧ s.faultCause = .noFault ∧ s.faultInfo = 0 ∧
        s.config = config ∧ s.Inv) ∧
    (image.length = 0 ∨ 32768 < image.length → State.construct config image = none)

/-- No step changes a parameter or the size of memory (R6, R51, R238); that the parameters stand in
the state is this model's choice (log entry 4). -/
def Obligations.ParametersNeverChange : Prop :=
  ∀ s t : State, step s = .next t → t.config = s.config ∧ t.mem.size = s.mem.size

/-- What has been emitted stays: every step's trace begins with the trace before it, a restore's
too (R35); the trace is a field of this model's own (log entry 6). -/
def Obligations.TraceOnlyGrows : Prop :=
  ∀ s t : State, step s = .next t → s.trace <+: t.trace

/-- A step emits a character exactly when it executes an `out` whose value is a character, and then
that one (R231; decisions D10 and D11 of the spec; the trace is a field of this model's own, log
entry 6). -/
def Obligations.OutCharOnlyFromOut : Prop :=
  ∀ s t : State, s.status = .running → step s = .next t →
    (∀ a rest, decode (fetchCells s) = .instr (.out a) rest →
      (value s a).toNat ≤ s.config.outMax →
      outChars t.trace = outChars s.trace ++ [value s a]) ∧
    ((∀ a rest, decode (fetchCells s) = .instr (.out a) rest →
      s.config.outMax < (value s a).toNat) →
      outChars t.trace = outChars s.trace)

/-- A Running machine becomes Halted exactly by `halt` and by `ret` on an empty stack (R31, R276;
the status register is decision D4 of the spec). -/
def Obligations.HaltedOnlyByHaltOrEmptyRet : Prop :=
  ∀ s t : State, s.status = .running → step s = .next t →
    (t.status = .halted ↔
      s.mem.read s.pc.toNat = some 0 ∨ (s.mem.read s.pc.toNat = some 18 ∧ s.stack = []))

/-- Faults are precise (R262, decision D4 of the spec): a step that ends Faulted leaves memory,
registers, pc, stack and queue as they were, and emits no character and no diagnostic. The trace may
still gain the request and the answer of a faulting `in` (log entry 12). -/
def Obligations.FaultsArePrecise : Prop :=
  ∀ s t : State, s.status = .running → step s = .next t → t.status = .faulted →
    t.mem = s.mem ∧ t.regs = s.regs ∧ t.pc = s.pc ∧ t.stack = s.stack ∧ t.queue = s.queue ∧
    t.faultCause ≠ .noFault ∧ t.trace.filter Event.isOutput = s.trace.filter Event.isOutput

/-- The numeric codes of the status and of the fault causes (R31, R261; decision D5 of the
spec). -/
def Obligations.StatusAndFaultCodes : Prop :=
  Status.running.code = 0 ∧ Status.halted.code = 1 ∧ Status.faulted.code = 2 ∧
  FaultCause.noFault.code = 0 ∧ FaultCause.invalidOperand.code = 1 ∧
  FaultCause.invalidDestination.code = 2 ∧ FaultCause.stackUnderflow.code = 3 ∧
  FaultCause.divisionByZero.code = 4 ∧ FaultCause.memoryBounds.code = 5 ∧
  FaultCause.invalidCharacter.code = 6 ∧ FaultCause.stackOverflow.code = 7 ∧
  FaultCause.queueOverflow.code = 8 ∧ FaultCause.hostFailure.code = 9

/-- The host's answers reach the core only through an `in` on an empty queue (R9, R234): any other
step does the same whatever answers are to come, and takes none of them. The list of answers is a
field of this model's own (log entry 5). -/
def Obligations.AnswersReachOnlyAskingIn : Prop :=
  ∀ (s t : State) (others : List HostAnswer),
    ¬ (s.mem.read s.pc.toNat = some 20 ∧ s.queue = []) → step s = .next t →
    t.answers = s.answers ∧ step { s with answers := others } = .next { t with answers := others }

/-! ### Operands and the arithmetic unit -/

/-- R114: a value operand is the register's content for a selector cell, and the cell itself for
any other, an invalid one too. -/
def Obligations.ValueOperandResolution : Prop :=
  ∀ (s : State) (c : Cell),
    (∀ i : Fin 8, c.toNat = 32768 + i.val → value s (classify c) = s.reg i) ∧
    (c.toNat < 32768 ∨ 32776 ≤ c.toNat → value s (classify c) = c)

/-- R116, R117, R121: the formulas of add, multiply and not for all 16-bit operands, and the forms
those rules say give the same result: a 16-bit adder without its carry and with bit 15 cleared, the
low 15 bits of the product, the complement with bit 15 cleared. -/
def Obligations.ArithmeticUnitFormulas : Prop :=
  ∀ p q : Cell,
    (aluAdd p q).toNat = (p.toNat + q.toNat) % 32768 ∧ aluAdd p q = (p + q) &&& 0x7FFF#16 ∧
    (aluMul p q).toNat = (p.toNat * q.toNat) % 32768 ∧ aluMul p q = (p * q) &&& 0x7FFF#16 ∧
    (aluNot p).toNat = (65535 - p.toNat) % 32768 ∧ aluNot p = ~~~p &&& 0x7FFF#16 ∧
    (p.toNat ≤ 32767 → aluNot (aluNot p) = p) ∧
    (32768 ≤ p.toNat → (aluNot (aluNot p)).toNat = p.toNat - 32768)

/-- The laws of R124, those of the source and those the spec derives: add and multiply commute, not
is an involution on numbers, every result but that of and and or is a number, adding 32767
decrements, and not with 1 added negates. -/
def Obligations.ArithmeticLaws : Prop :=
  ∀ p q : Cell,
    aluAdd p q = aluAdd q p ∧ aluMul p q = aluMul q p ∧
    (p.toNat ≤ 32767 → aluNot (aluNot p) = p ∧ aluAdd p (aluAdd (aluNot p) 1) = 0) ∧
    (aluAdd p 32767).toNat = (p.toNat + 32767) % 32768 ∧
    (aluAdd p q).toNat ≤ 32767 ∧ (aluMul p q).toNat ≤ 32767 ∧ (aluNot p).toNat ≤ 32767 ∧
    (cmpEq p q).toNat ≤ 1 ∧ (cmpGt p q).toNat ≤ 1 ∧
    ∀ r, aluMod p q = .ok r → r.toNat ≤ 32767

/-! ### The instructions: result, completion and frame -/

/-- `halt` (R150): status Halted, and nothing but that and pc changed. That pc advances by 1 is
decision D12 of the spec (log entry 14). -/
def Obligations.HaltStopsTheMachine : Prop :=
  ∀ s : State, exec .halt s = .next { s with status := .halted, pc := s.pc + 1 }

/-- R151: `noop` moves pc by 1 and does nothing else. -/
def Obligations.NoopOnlyMovesPc : Prop :=
  ∀ s : State, exec .noop s = .next { s with pc := s.pc + 1 }

/-- `set` (R160, whose register-only destination is decision D8 of the spec): the value goes into
the register; any other first operand raises InvalidOperand with the raw cell, and memory is not
written. -/
def Obligations.SetWritesOnlyARegister : Prop :=
  ∀ (a b : Operand) (s : State),
    (∀ i, a = .register i → ∃ t, exec (.set a b) s = .next t ∧ Wrote s t a (value s b) ∧
      t.pc = s.pc + 3 ∧ SameRest s t) ∧
    (∀ n, a = .number n →
      exec (.set a b) s = .next (s.faultedWith .invalidOperand (n.setWidth 16))) ∧
    (∀ c, a = .invalid c → exec (.set a b) s = .next (s.faultedWith .invalidOperand c))

/-- R161: `push` puts the value on top of the stack, unchanged, and moves pc by 2; only a bounded
stack that is full raises StackOverflow (R26, decision D13 of the spec). R26 tests for equality with
the depth: that a stack beyond its depth, which no run reaches, raises too is this model's choice
(DESIGN CHOICE, log entry 20). -/
def Obligations.PushAppendsValue : Prop :=
  ∀ (a : Operand) (s : State),
    (Room s.config.stackDepth (s.stack.length + 1) →
      exec (.push a) s = .next { s with stack := s.stack ++ [value s a], pc := s.pc + 2 }) ∧
    (∀ d, s.config.stackDepth = some d → d ≤ s.stack.length →
      exec (.push a) s = .next (s.faultedWith .stackOverflow (value s a)))

/-- R162: `pop` moves the top of the stack to its destination; an empty stack raises StackUnderflow
before the destination is looked at, and a faulting `pop` leaves the stack. -/
def Obligations.PopMovesTopToDestination : Prop :=
  ∀ (a : Operand) (s : State),
    (s.stack = [] → exec (.pop a) s = .next (s.faultedWith .stackUnderflow 0)) ∧
    ∀ below v, s.stack = below ++ [v] →
      (Accepts s a → ∃ t, exec (.pop a) s = .next t ∧ Wrote s t a v ∧ t.pc = s.pc + 2 ∧
        SameRest { s with stack := below } t) ∧
      RefusesDest (.pop a) s a

/-- R170, R171: `eq` and `gt` put 1 or 0 into their destination by comparing the raw 16-bit
values. -/
def Obligations.CompareStoresOneOrZero : Prop :=
  ∀ (a b c : Operand) (s : State),
    PutsResult (.eq a b c) s a (if value s b = value s c then 1 else 0) 4 ∧
    PutsResult (.gt a b c) s a (if (value s c).toNat < (value s b).toNat then 1 else 0) 4

/-- R190, R191: `add` and `mult` put the sum and the product, reduced modulo 32768, into their
destination, for operand values of any 16 bits. -/
def Obligations.AddMultStoreReducedResult : Prop :=
  ∀ (a b c : Operand) (s : State),
    PutsResult (.add a b c) s a
      (BitVec.ofNat 16 (((value s b).toNat + (value s c).toNat) % 32768)) 4 ∧
    PutsResult (.mult a b c) s a
      (BitVec.ofNat 16 (((value s b).toNat * (value s c).toNat) % 32768)) 4

/-- `mod` (R192): the remainder of the operands reduced modulo 32768; a divisor that is 0, or 32768
(decision D9 of the spec), raises DivisionByZero with the raw divisor, but a bad destination is
reported first. -/
def Obligations.ModStoresRemainder : Prop :=
  ∀ (a b c : Operand) (s : State),
    ((value s c).toNat % 32768 ≠ 0 →
      PutsResult (.mod a b c) s a
        (BitVec.ofNat 16 (((value s b).toNat % 32768) % ((value s c).toNat % 32768))) 4) ∧
    ((value s c).toNat % 32768 = 0 →
      (Accepts s a →
        exec (.mod a b c) s = .next (s.faultedWith .divisionByZero (value s c))) ∧
      RefusesDest (.mod a b c) s a)

/-- R193, R194, R195: `and` and `or` put the 16-bit pattern into their destination, bit 15 kept;
`not` the complement with bit 15 clear. -/
def Obligations.BitwiseStoresPattern : Prop :=
  ∀ (a b c : Operand) (s : State),
    PutsResult (.and a b c) s a (value s b &&& value s c) 4 ∧
    PutsResult (.or a b c) s a (value s b ||| value s c) 4 ∧
    PutsResult (.not a b) s a (BitVec.ofNat 16 (32767 - (value s b).toNat % 32768)) 3

/-- `jmp` (R180; that a target must be a number is decision D7 of the spec). -/
def Obligations.JmpRedirects : Prop :=
  ∀ (a : Operand) (s : State),
    ((value s a).toNat ≤ 32767 → exec (.jmp a) s = .next { s with pc := value s a }) ∧
    (32768 ≤ (value s a).toNat →
      exec (.jmp a) s = .next (s.faultedWith .invalidOperand (value s a)))

/-- `jt` and `jf` (R181, R182; decision D7 of the spec): the raw value decides, the target matters
only when the jump is taken. -/
def Obligations.ConditionalJumpsTestRawValue : Prop :=
  ∀ (a b : Operand) (s : State),
    (value s a ≠ 0 → (value s b).toNat ≤ 32767 →
      exec (.jt a b) s = .next { s with pc := value s b }) ∧
    (value s a ≠ 0 → 32768 ≤ (value s b).toNat →
      exec (.jt a b) s = .next (s.faultedWith .invalidOperand (value s b))) ∧
    (value s a = 0 → exec (.jt a b) s = .next { s with pc := s.pc + 3 }) ∧
    (value s a = 0 → (value s b).toNat ≤ 32767 →
      exec (.jf a b) s = .next { s with pc := value s b }) ∧
    (value s a = 0 → 32768 ≤ (value s b).toNat →
      exec (.jf a b) s = .next (s.faultedWith .invalidOperand (value s b))) ∧
    (value s a ≠ 0 → exec (.jf a b) s = .next { s with pc := s.pc + 3 })

/-- `rmem` (R210; decisions D1 and D7 of the spec): the cell at the resolved address goes into the
destination as it is; a bad destination is reported before a bad address. -/
def Obligations.RmemLoadsCell : Prop :=
  ∀ (a b : Operand) (s : State),
    (∀ v, (value s b).toNat ≤ 32767 → s.mem.read (value s b).toNat = some v →
      PutsResult (.rmem a b) s a v 3) ∧
    (Accepts s a → 32768 ≤ (value s b).toNat →
      exec (.rmem a b) s = .next (s.faultedWith .invalidOperand (value s b))) ∧
    (Accepts s a → (value s b).toNat ≤ 32767 → s.mem.size ≤ (value s b).toNat →
      exec (.rmem a b) s = .next (s.faultedWith .memoryBounds (value s b))) ∧
    RefusesDest (.rmem a b) s a

/-- `wmem` (R211; decisions D1 and D7 of the spec): the one cell at the resolved first operand is
written, all 16 bits; no register is. -/
def Obligations.WmemStoresCell : Prop :=
  ∀ (a b : Operand) (s : State),
    ((value s a).toNat ≤ 32767 → (value s a).toNat < s.mem.size →
      ∃ t, exec (.wmem a b) s = .next t ∧
        t.mem.read (value s a).toNat = some (value s b) ∧
        (∀ addr, addr ≠ (value s a).toNat → t.mem.read addr = s.mem.read addr) ∧
        t.regs = s.regs ∧ t.pc = s.pc + 3 ∧ SameRest s t) ∧
    (32768 ≤ (value s a).toNat →
      exec (.wmem a b) s = .next (s.faultedWith .invalidOperand (value s a))) ∧
    ((value s a).toNat ≤ 32767 → s.mem.size ≤ (value s a).toNat →
      exec (.wmem a b) s = .next (s.faultedWith .memoryBounds (value s a)))

/-- `call` (R220; decisions D7 and D13 of the spec): the return address pc + 2 goes on the stack
and pc to the target; a bad target is reported first and pushes nothing; a full bounded stack raises
StackOverflow. R26 tests for equality with the depth: that a stack beyond its depth, which no run
reaches, raises too is this model's choice (DESIGN CHOICE, log entry 20). -/
def Obligations.CallPushesReturnAddress : Prop :=
  ∀ (a : Operand) (s : State),
    ((value s a).toNat ≤ 32767 → Room s.config.stackDepth (s.stack.length + 1) →
      exec (.call a) s = .next { s with stack := s.stack ++ [s.pc + 2], pc := value s a }) ∧
    (32768 ≤ (value s a).toNat →
      exec (.call a) s = .next (s.faultedWith .invalidOperand (value s a))) ∧
    ((value s a).toNat ≤ 32767 → ∀ d, s.config.stackDepth = some d → d ≤ s.stack.length →
      exec (.call a) s = .next (s.faultedWith .stackOverflow (s.pc + 2)))

/-- `ret` (R221): to the popped number; Halted on an empty stack, whose pc is decision D12 of the
spec (log entry 14); a top that is no number faults unpopped (decision D7). -/
def Obligations.RetPopsOrHalts : Prop :=
  ∀ s : State,
    (s.stack = [] → exec .ret s = .next { s with status := .halted, pc := s.pc + 1 }) ∧
    ∀ below v, s.stack = below ++ [v] →
      (v.toNat ≤ 32767 → exec .ret s = .next { s with stack := below, pc := v }) ∧
      (32768 ≤ v.toNat → exec .ret s = .next (s.faultedWith .invalidOperand v))

/-- One stack serves both uses (R25): what `push` put there `ret` jumps to, and what `call` put
there `pop` takes. -/
def Obligations.OneStackForBothUses : Prop :=
  ∀ (a : Operand) (i : Fin 8) (s : State), (value s a).toNat ≤ 32767 →
    Room s.config.stackDepth (s.stack.length + 1) →
    (∃ t u, exec (.push a) s = .next t ∧ exec .ret t = .next u ∧ u.pc = value s a ∧
      u.stack = s.stack) ∧
    (∃ t u, exec (.call a) s = .next t ∧ exec (.pop (.register i)) t = .next u ∧
      u.reg i = s.pc + 2 ∧ u.stack = s.stack ∧ u.pc = value s a + 2)

/-- `out` (R230; the bound is decision D10 of the spec): one character event and pc + 2; a value
above OUT_MAX raises InvalidCharacter and emits nothing. The trace that holds the event is a field of
this model's own (log entry 6). -/
def Obligations.OutEmitsCharacter : Prop :=
  ∀ (a : Operand) (s : State),
    ((value s a).toNat ≤ s.config.outMax →
      exec (.out a) s =
        .next { s with trace := s.trace ++ [.outChar (value s a)], pc := s.pc + 2 }) ∧
    (s.config.outMax < (value s a).toNat →
      exec (.out a) s = .next (s.faultedWith .invalidCharacter (value s a)))

/-! ### in and the host's answers

In every statement of this part the list of answers and the trace are fields of this model's own
(log entries 5 and 6), and `answeredTrace` emits a request once however long the `in` was held (log
entry 7). What the rules cited say is about the other fields. -/

/-- `in` with characters waiting (R232): the front of the queue goes to the destination, one
character alone, and the host is not asked. -/
def Obligations.InDeliversFront : Prop :=
  ∀ (a : Operand) (s : State) (ch : Cell) (later : List Cell), s.queue = ch :: later →
    Accepts s a →
    ∃ t, exec (.inp a) s = .next t ∧ Wrote s t a ch ∧ t.pc = s.pc + 2 ∧
      SameRest { s with queue := later } t

/-- The destination of `in` is checked before anything else, before the host is asked (R232,
decision D14 of the spec): no request goes out and no answer is taken. -/
def Obligations.InChecksDestinationFirst : Prop :=
  ∀ (a : Operand) (s : State), RefusesDest (.inp a) s a

/-- The answer `Line` (R236; the code 10 is decision D19 of the spec, the commands' spelling log
entry 8): the bytes and a newline are queued and the first of them delivered in the same step. That
the answer is taken, and what the trace gains, is this model's (log entries 5, 6 and 7). -/
def Obligations.InTakesLine : Prop :=
  ∀ (a : Operand) (s : State) (bytes : List Cell) (later : List HostAnswer) (ch : Cell)
    (rest : List Cell), Accepts s a → s.queue = [] → s.answers = .line bytes :: later →
    (∀ b ∈ bytes, b.toNat ≤ 127) → bytes ≠ [115, 97, 118, 101] → bytes ≠ [108, 111, 97, 100] →
    Room s.config.queueDepth (bytes.length + 1) → bytes ++ [10] = ch :: rest →
    ∃ t, exec (.inp a) s = .next t ∧ Wrote s t a ch ∧ t.pc = s.pc + 2 ∧
      SameRest { s with
        queue := rest, answers := later, trace := answeredTrace s (.line bytes) } t

/-- R237: on the answer `Save` the host is handed the snapshot as it stands, pc at the `in` and the
queue empty, and the core's state does not change. That the answer is taken, and that the trace gains
the request once, the answer and the hand-over, is this model's (log entries 5, 6 and 7). -/
def Obligations.InSaveHandsOverSnapshot : Prop :=
  ∀ (a : Operand) (s : State) (later : List HostAnswer), Accepts s a → s.queue = [] →
    s.answers = .save :: later →
    exec (.inp a) s = .next { s with
      answers := later
      trace := answeredTrace s .save ++
        [.handOver { mem := s.mem, stack := s.stack, regs := s.regs, pc := s.pc, queue := [] }] }

/-- R239: on the answer `Reject` the state does not change; the `in` will run again. That the answer
is taken, and that the trace gains the request once and the answer, is this model's (log entries 5,
6 and 7). -/
def Obligations.InRejectChangesNothing : Prop :=
  ∀ (a : Operand) (s : State) (later : List HostAnswer), Accepts s a → s.queue = [] →
    s.answers = .reject :: later →
    exec (.inp a) s = .next { s with answers := later, trace := answeredTrace s .reject }

/-- R240, R271: on the answer `Fail` the step raises HostFailure(0) and leaves the state of the spec
but for the fault's three registers as it was before the request (decision D4 of the spec). That the
faulting `in` still takes the answer, and that the request and the answer stay in the trace, is this
model's reading (DEDUCED, log entry 12; log entries 5, 6 and 7). -/
def Obligations.InFailRaisesHostFailure : Prop :=
  ∀ (a : Operand) (s : State) (later : List HostAnswer), Accepts s a → s.queue = [] →
    s.answers = .fail :: later →
    exec (.inp a) s = .next { s.faultedWith .hostFailure 0 with
      answers := later, trace := answeredTrace s .fail }

/-- The answer `Load` (R238; decisions D15 and D16 of the spec): all five parts are replaced, the
line `look` is queued behind the snapshot's queue, the status stays, nothing is delivered; without
room in a bounded queue it is QueueOverflow(5) (log entry 9). The answer taken and the trace are this
model's (log entries 5, 6 and 7, and 12 where the step faults). -/
def Obligations.InLoadReplacesState : Prop :=
  ∀ (a : Operand) (s : State) (p : Snapshot) (later : List HostAnswer), Accepts s a →
    s.queue = [] → s.answers = .load p :: later → p.mem.wf = true → p.mem.size = s.mem.size →
    p.pc.toNat ≤ 32771 → Room s.config.stackDepth p.stack.length →
    (Room s.config.queueDepth (p.queue.length + 5) →
      exec (.inp a) s = .next { s with
        mem := p.mem, stack := p.stack, regs := p.regs, pc := p.pc
        queue := p.queue ++ [108, 111, 111, 107, 10]
        answers := later, trace := answeredTrace s (.load p) }) ∧
    (∀ d, s.config.queueDepth = some d → d < p.queue.length + 5 →
      exec (.inp a) s = .next { s.faultedWith .queueOverflow 5 with
        answers := later, trace := answeredTrace s (.load p) })

/-- Without an answer the core is held (R241, decision D18 of the spec; that a held step is a next
state and the request one event is log entry 7): no state changes, the pc stays at the `in`. -/
def Obligations.InHeldWithoutAnswer : Prop :=
  ∀ (a : Operand) (s : State), Accepts s a → s.queue = [] → s.answers = [] →
    exec (.inp a) s = .next { s with
      trace := if s.trace.getLast? = some .lineRequest then s.trace
        else s.trace ++ [.lineRequest] }

/-- What no legal host answers is refused by name (R236, R238; log entries 8 and 9): a line with a
cell above 127, and a snapshot of another memory size, with a pc above 32771 or too deep a
stack. -/
def Obligations.IllegalAnswersRefused : Prop :=
  ∀ (a : Operand) (s : State) (later : List HostAnswer), Accepts s a → s.queue = [] →
    (∀ bytes b, s.answers = .line bytes :: later → b ∈ bytes → 127 < b.toNat →
      exec (.inp a) s = .refused .illegalLine) ∧
    (∀ p, s.answers = .load p :: later →
      (p.mem.size ≠ s.mem.size ∨ 32771 < p.pc.toNat ∨
        ¬ Room s.config.stackDepth p.stack.length) →
      exec (.inp a) s = .refused .illegalSnapshot)

/-- A line that does not fit a bounded queue raises QueueOverflow with the number of cells that
were to be queued (R29, R269; decision D13 of the spec), and the state is as before. The 16 bits of
the count are log entry 11, the answer taken and the trace log entries 5, 6, 7 and 12. -/
def Obligations.LongLineOverflowsBoundedQueue : Prop :=
  ∀ (a : Operand) (s : State) (bytes : List Cell) (later : List HostAnswer) (d : Nat),
    Accepts s a → s.queue = [] → s.answers = .line bytes :: later → legalLine bytes = true →
    s.config.queueDepth = some d → d < bytes.length + 1 →
    exec (.inp a) s = .next { s.faultedWith .queueOverflow (BitVec.ofNat 16 (bytes.length + 1)) with
      answers := later, trace := answeredTrace s (.line bytes) }

/-- The round trip of R245 (which the spec derives): an `in` answered `Save`, then `Load` of the
snapshot just handed over, then delivering, leaves the state of the same `in` answered with the
line `look`, and the same characters out. It rests on decision D15 of the spec (log entry 16), and the
answers and the trace are fields of this model's own (log entries 5 and 6). -/
def Obligations.SaveThenLoadIsLikeTypingLook : Prop :=
  ∀ (a : Operand) (s : State) (rest : List Cell) (later : List HostAnswer), s.Inv →
    s.status = .running → decode (fetchCells s) = .instr (.inp a) rest → Accepts s a →
    s.queue = [] → Room s.config.queueDepth 5 →
    s.answers = .save :: .load s.snapshot :: later →
    ∃ t u v w, step s = .next t ∧ step t = .next u ∧ step u = .next v ∧
      step { s with answers := .line [108, 111, 111, 107] :: later } = .next w ∧
      v = { w with trace := v.trace } ∧ outChars v.trace = outChars w.trace
end

