-- ==== Sys2Proof/Laws/Decode.lean ====
section
/-! SUPPORT. Classification and the raw cell are inverse to each other (R83, R110). -/

namespace Sys2Proof

theorem classify_number {c : Cell} (h : c.toNat ≤ 32767) :
    classify c = .number (c.setWidth 15) := by simp [classify, h]

theorem classify_register {c : Cell} (h1 : 32768 ≤ c.toNat) (h2 : c.toNat ≤ 32775) :
    classify c = .register (c.setWidth 3).toFin := by
  simp [classify, h2, show ¬c.toNat ≤ 32767 by omega]

theorem classify_invalid {c : Cell} (h : 32776 ≤ c.toNat) : classify c = .invalid c := by
  simp [classify, show ¬c.toNat ≤ 32767 by omega, show ¬c.toNat ≤ 32775 by omega]

/-- The three classes of a cell, each with its range. -/
theorem classify_cases (c : Cell) :
    (c.toNat ≤ 32767 ∧ classify c = .number (c.setWidth 15)) ∨
    (32768 ≤ c.toNat ∧ c.toNat ≤ 32775 ∧ classify c = .register (c.setWidth 3).toFin) ∨
    (32776 ≤ c.toNat ∧ classify c = .invalid c) := by
  rcases Nat.lt_or_ge c.toNat 32768 with h | h
  · exact .inl ⟨by omega, classify_number (by omega)⟩
  · rcases Nat.lt_or_ge c.toNat 32776 with h' | h'
    · exact .inr (.inl ⟨h, by omega, classify_register h (by omega)⟩)
    · exact .inr (.inr ⟨h', classify_invalid h'⟩)

@[simp] theorem classify_wf (c : Cell) : (classify c).wf = true := by
  rcases classify_cases c with ⟨_, h⟩ | ⟨_, _, h⟩ | ⟨h', h⟩ <;> simp [h, Operand.wf]
  exact h'

/-- No bit of an operand cell is lost in its classification. -/
@[simp] theorem raw_classify (c : Cell) : (classify c).raw = c := by
  rcases classify_cases c with ⟨hc, h⟩ | ⟨h1, h2, h⟩ | ⟨_, h⟩
  · rw [h]
    apply BitVec.eq_of_toNat_eq
    simp [Operand.raw]
    omega
  · rw [h]
    apply BitVec.eq_of_toNat_eq
    simp [Operand.raw]
    omega
  · rw [h]; rfl

/-- A well-formed operand is the class of its own raw cell. -/
theorem classify_raw {a : Operand} (h : a.wf = true) : classify a.raw = a := by
  cases a with
  | number n =>
    have hn := n.isLt
    have hr : (Operand.number n).raw.toNat = n.toNat := by simp [Operand.raw]; omega
    rw [classify_number (by omega)]
    simp [Operand.raw]
  | register i =>
    have hi := i.isLt
    have hr : (Operand.register i).raw.toNat = 32768 + i.val := by simp [Operand.raw]; omega
    rw [classify_register (by omega) (by omega)]
    congr 1
    apply Fin.ext
    simp [Operand.raw]
    omega
  | invalid c => exact classify_invalid (c := c) (by simpa [Operand.wf] using h)

/-- The encoder writes as many cells as the instruction is long (R86). -/
@[simp] theorem encode_length (i : Instr) : (encode i).length = i.length := by
  simp [encode, Instr.length, Nat.add_comm]

end Sys2Proof
end

