-- ==== Sys2Proof/Laws/State.lean ====
section
/-! SUPPORT. One lemma per field per update of the state, so that no later proof unfolds a record
update. -/

namespace Sys2Proof.Machine

/-! ### raise -/

@[simp] theorem State.raise_config (s : State) (r : Raised) :
    (s.raise r).config = s.config := rfl
@[simp] theorem State.raise_mem (s : State) (r : Raised) :
    (s.raise r).mem = s.mem := rfl
@[simp] theorem State.raise_regs (s : State) (r : Raised) :
    (s.raise r).regs = s.regs := rfl
@[simp] theorem State.raise_pc (s : State) (r : Raised) :
    (s.raise r).pc = s.pc := rfl
@[simp] theorem State.raise_stack (s : State) (r : Raised) :
    (s.raise r).stack = s.stack := rfl
@[simp] theorem State.raise_queue (s : State) (r : Raised) :
    (s.raise r).queue = s.queue := rfl
@[simp] theorem State.raise_status (s : State) (r : Raised) :
    (s.raise r).status = .faulted := rfl
@[simp] theorem State.raise_faultCause (s : State) (r : Raised) :
    (s.raise r).faultCause = r.cause := rfl
@[simp] theorem State.raise_faultInfo (s : State) (r : Raised) :
    (s.raise r).faultInfo = r.info := rfl
@[simp] theorem State.raise_answers (s : State) (r : Raised) :
    (s.raise r).answers = s.answers := rfl
@[simp] theorem State.raise_trace (s : State) (r : Raised) :
    (s.raise r).trace = s.trace := rfl
@[simp] theorem State.raise_reg (s : State) (r : Raised) (j : Fin 8) :
    (s.raise r).reg j = s.reg j := by simp [State.reg]

/-! ### setReg -/

@[simp] theorem State.setReg_config (s : State) (i : Fin 8) (v : Cell) :
    (s.setReg i v).config = s.config := rfl
@[simp] theorem State.setReg_mem (s : State) (i : Fin 8) (v : Cell) :
    (s.setReg i v).mem = s.mem := rfl
@[simp] theorem State.setReg_regs (s : State) (i : Fin 8) (v : Cell) :
    (s.setReg i v).regs = s.regs.set i v := rfl
@[simp] theorem State.setReg_pc (s : State) (i : Fin 8) (v : Cell) :
    (s.setReg i v).pc = s.pc := rfl
@[simp] theorem State.setReg_stack (s : State) (i : Fin 8) (v : Cell) :
    (s.setReg i v).stack = s.stack := rfl
@[simp] theorem State.setReg_queue (s : State) (i : Fin 8) (v : Cell) :
    (s.setReg i v).queue = s.queue := rfl
@[simp] theorem State.setReg_status (s : State) (i : Fin 8) (v : Cell) :
    (s.setReg i v).status = s.status := rfl
@[simp] theorem State.setReg_faultCause (s : State) (i : Fin 8) (v : Cell) :
    (s.setReg i v).faultCause = s.faultCause := rfl
@[simp] theorem State.setReg_faultInfo (s : State) (i : Fin 8) (v : Cell) :
    (s.setReg i v).faultInfo = s.faultInfo := rfl
@[simp] theorem State.setReg_answers (s : State) (i : Fin 8) (v : Cell) :
    (s.setReg i v).answers = s.answers := rfl
@[simp] theorem State.setReg_trace (s : State) (i : Fin 8) (v : Cell) :
    (s.setReg i v).trace = s.trace := rfl

/-! ### advance -/

@[simp] theorem State.advance_config (s : State) (n : Nat) :
    (s.advance n).config = s.config := rfl
@[simp] theorem State.advance_mem (s : State) (n : Nat) :
    (s.advance n).mem = s.mem := rfl
@[simp] theorem State.advance_regs (s : State) (n : Nat) :
    (s.advance n).regs = s.regs := rfl
@[simp] theorem State.advance_pc (s : State) (n : Nat) :
    (s.advance n).pc = s.pc + BitVec.ofNat 16 n := rfl
@[simp] theorem State.advance_stack (s : State) (n : Nat) :
    (s.advance n).stack = s.stack := rfl
@[simp] theorem State.advance_queue (s : State) (n : Nat) :
    (s.advance n).queue = s.queue := rfl
@[simp] theorem State.advance_status (s : State) (n : Nat) :
    (s.advance n).status = s.status := rfl
@[simp] theorem State.advance_faultCause (s : State) (n : Nat) :
    (s.advance n).faultCause = s.faultCause := rfl
@[simp] theorem State.advance_faultInfo (s : State) (n : Nat) :
    (s.advance n).faultInfo = s.faultInfo := rfl
@[simp] theorem State.advance_answers (s : State) (n : Nat) :
    (s.advance n).answers = s.answers := rfl
@[simp] theorem State.advance_trace (s : State) (n : Nat) :
    (s.advance n).trace = s.trace := rfl
@[simp] theorem State.advance_reg (s : State) (n : Nat) (j : Fin 8) :
    (s.advance n).reg j = s.reg j := by simp [State.reg]

/-! ### jump -/

@[simp] theorem State.jump_config (s : State) (t : Cell) :
    (s.jump t).config = s.config := rfl
@[simp] theorem State.jump_mem (s : State) (t : Cell) :
    (s.jump t).mem = s.mem := rfl
@[simp] theorem State.jump_regs (s : State) (t : Cell) :
    (s.jump t).regs = s.regs := rfl
@[simp] theorem State.jump_pc (s : State) (t : Cell) :
    (s.jump t).pc = t := rfl
@[simp] theorem State.jump_stack (s : State) (t : Cell) :
    (s.jump t).stack = s.stack := rfl
@[simp] theorem State.jump_queue (s : State) (t : Cell) :
    (s.jump t).queue = s.queue := rfl
@[simp] theorem State.jump_status (s : State) (t : Cell) :
    (s.jump t).status = s.status := rfl
@[simp] theorem State.jump_faultCause (s : State) (t : Cell) :
    (s.jump t).faultCause = s.faultCause := rfl
@[simp] theorem State.jump_faultInfo (s : State) (t : Cell) :
    (s.jump t).faultInfo = s.faultInfo := rfl
@[simp] theorem State.jump_answers (s : State) (t : Cell) :
    (s.jump t).answers = s.answers := rfl
@[simp] theorem State.jump_trace (s : State) (t : Cell) :
    (s.jump t).trace = s.trace := rfl
@[simp] theorem State.jump_reg (s : State) (t : Cell) (j : Fin 8) :
    (s.jump t).reg j = s.reg j := by simp [State.reg]

/-! ### stop -/

@[simp] theorem State.stop_config (s : State) :
    (s.stop).config = s.config := rfl
@[simp] theorem State.stop_mem (s : State) :
    (s.stop).mem = s.mem := rfl
@[simp] theorem State.stop_regs (s : State) :
    (s.stop).regs = s.regs := rfl
@[simp] theorem State.stop_pc (s : State) :
    (s.stop).pc = s.pc := rfl
@[simp] theorem State.stop_stack (s : State) :
    (s.stop).stack = s.stack := rfl
@[simp] theorem State.stop_queue (s : State) :
    (s.stop).queue = s.queue := rfl
@[simp] theorem State.stop_status (s : State) :
    (s.stop).status = .halted := rfl
@[simp] theorem State.stop_faultCause (s : State) :
    (s.stop).faultCause = s.faultCause := rfl
@[simp] theorem State.stop_faultInfo (s : State) :
    (s.stop).faultInfo = s.faultInfo := rfl
@[simp] theorem State.stop_answers (s : State) :
    (s.stop).answers = s.answers := rfl
@[simp] theorem State.stop_trace (s : State) :
    (s.stop).trace = s.trace := rfl
@[simp] theorem State.stop_reg (s : State) (j : Fin 8) :
    (s.stop).reg j = s.reg j := by simp [State.reg]

/-! ### emit -/

@[simp] theorem State.emit_config (s : State) (e : Event) :
    (s.emit e).config = s.config := rfl
@[simp] theorem State.emit_mem (s : State) (e : Event) :
    (s.emit e).mem = s.mem := rfl
@[simp] theorem State.emit_regs (s : State) (e : Event) :
    (s.emit e).regs = s.regs := rfl
@[simp] theorem State.emit_pc (s : State) (e : Event) :
    (s.emit e).pc = s.pc := rfl
@[simp] theorem State.emit_stack (s : State) (e : Event) :
    (s.emit e).stack = s.stack := rfl
@[simp] theorem State.emit_queue (s : State) (e : Event) :
    (s.emit e).queue = s.queue := rfl
@[simp] theorem State.emit_status (s : State) (e : Event) :
    (s.emit e).status = s.status := rfl
@[simp] theorem State.emit_faultCause (s : State) (e : Event) :
    (s.emit e).faultCause = s.faultCause := rfl
@[simp] theorem State.emit_faultInfo (s : State) (e : Event) :
    (s.emit e).faultInfo = s.faultInfo := rfl
@[simp] theorem State.emit_answers (s : State) (e : Event) :
    (s.emit e).answers = s.answers := rfl
@[simp] theorem State.emit_trace (s : State) (e : Event) :
    (s.emit e).trace = s.trace ++ [e] := rfl
@[simp] theorem State.emit_reg (s : State) (e : Event) (j : Fin 8) :
    (s.emit e).reg j = s.reg j := by simp [State.reg]

/-! ### take -/

@[simp] theorem State.take_config (s : State) (r : HostAnswer) (later : List HostAnswer) :
    (s.take r later).config = s.config := rfl
@[simp] theorem State.take_mem (s : State) (r : HostAnswer) (later : List HostAnswer) :
    (s.take r later).mem = s.mem := rfl
@[simp] theorem State.take_regs (s : State) (r : HostAnswer) (later : List HostAnswer) :
    (s.take r later).regs = s.regs := rfl
@[simp] theorem State.take_pc (s : State) (r : HostAnswer) (later : List HostAnswer) :
    (s.take r later).pc = s.pc := rfl
@[simp] theorem State.take_stack (s : State) (r : HostAnswer) (later : List HostAnswer) :
    (s.take r later).stack = s.stack := rfl
@[simp] theorem State.take_queue (s : State) (r : HostAnswer) (later : List HostAnswer) :
    (s.take r later).queue = s.queue := rfl
@[simp] theorem State.take_status (s : State) (r : HostAnswer) (later : List HostAnswer) :
    (s.take r later).status = s.status := rfl
@[simp] theorem State.take_faultCause (s : State) (r : HostAnswer) (later : List HostAnswer) :
    (s.take r later).faultCause = s.faultCause := rfl
@[simp] theorem State.take_faultInfo (s : State) (r : HostAnswer) (later : List HostAnswer) :
    (s.take r later).faultInfo = s.faultInfo := rfl
@[simp] theorem State.take_answers (s : State) (r : HostAnswer) (later : List HostAnswer) :
    (s.take r later).answers = later := rfl
@[simp] theorem State.take_trace (s : State) (r : HostAnswer) (later : List HostAnswer) :
    (s.take r later).trace = s.trace ++ [.hostAnswer r] := rfl
@[simp] theorem State.take_reg (s : State) (r : HostAnswer) (later : List HostAnswer) (j : Fin 8) :
    (s.take r later).reg j = s.reg j := by simp [State.reg]

/-! ### restore -/

@[simp] theorem State.restore_config (s : State) (p : Snapshot) :
    (s.restore p).config = s.config := rfl
@[simp] theorem State.restore_mem (s : State) (p : Snapshot) :
    (s.restore p).mem = p.mem := rfl
@[simp] theorem State.restore_regs (s : State) (p : Snapshot) :
    (s.restore p).regs = p.regs := rfl
@[simp] theorem State.restore_pc (s : State) (p : Snapshot) :
    (s.restore p).pc = p.pc := rfl
@[simp] theorem State.restore_stack (s : State) (p : Snapshot) :
    (s.restore p).stack = p.stack := rfl
@[simp] theorem State.restore_queue (s : State) (p : Snapshot) :
    (s.restore p).queue = p.queue := rfl
@[simp] theorem State.restore_status (s : State) (p : Snapshot) :
    (s.restore p).status = s.status := rfl
@[simp] theorem State.restore_faultCause (s : State) (p : Snapshot) :
    (s.restore p).faultCause = s.faultCause := rfl
@[simp] theorem State.restore_faultInfo (s : State) (p : Snapshot) :
    (s.restore p).faultInfo = s.faultInfo := rfl
@[simp] theorem State.restore_answers (s : State) (p : Snapshot) :
    (s.restore p).answers = s.answers := rfl
@[simp] theorem State.restore_trace (s : State) (p : Snapshot) :
    (s.restore p).trace = s.trace := rfl

/-! ### request -/

@[simp] theorem State.request_config (s : State) :
    (s.request).config = s.config := by unfold State.request; split <;> rfl
@[simp] theorem State.request_mem (s : State) :
    (s.request).mem = s.mem := by unfold State.request; split <;> rfl
@[simp] theorem State.request_regs (s : State) :
    (s.request).regs = s.regs := by unfold State.request; split <;> rfl
@[simp] theorem State.request_pc (s : State) :
    (s.request).pc = s.pc := by unfold State.request; split <;> rfl
@[simp] theorem State.request_stack (s : State) :
    (s.request).stack = s.stack := by unfold State.request; split <;> rfl
@[simp] theorem State.request_queue (s : State) :
    (s.request).queue = s.queue := by unfold State.request; split <;> rfl
@[simp] theorem State.request_status (s : State) :
    (s.request).status = s.status := by unfold State.request; split <;> rfl
@[simp] theorem State.request_faultCause (s : State) :
    (s.request).faultCause = s.faultCause := by unfold State.request; split <;> rfl
@[simp] theorem State.request_faultInfo (s : State) :
    (s.request).faultInfo = s.faultInfo := by unfold State.request; split <;> rfl
@[simp] theorem State.request_answers (s : State) :
    (s.request).answers = s.answers := by unfold State.request; split <;> rfl
@[simp] theorem State.request_reg (s : State) (j : Fin 8) :
    (s.request).reg j = s.reg j := by simp [State.reg]

/-! ### faultedWith -/

@[simp] theorem State.faultedWith_config (s : State) (c : FaultCause) (v : Cell) :
    (s.faultedWith c v).config = s.config := rfl
@[simp] theorem State.faultedWith_mem (s : State) (c : FaultCause) (v : Cell) :
    (s.faultedWith c v).mem = s.mem := rfl
@[simp] theorem State.faultedWith_regs (s : State) (c : FaultCause) (v : Cell) :
    (s.faultedWith c v).regs = s.regs := rfl
@[simp] theorem State.faultedWith_pc (s : State) (c : FaultCause) (v : Cell) :
    (s.faultedWith c v).pc = s.pc := rfl
@[simp] theorem State.faultedWith_stack (s : State) (c : FaultCause) (v : Cell) :
    (s.faultedWith c v).stack = s.stack := rfl
@[simp] theorem State.faultedWith_queue (s : State) (c : FaultCause) (v : Cell) :
    (s.faultedWith c v).queue = s.queue := rfl
@[simp] theorem State.faultedWith_status (s : State) (c : FaultCause) (v : Cell) :
    (s.faultedWith c v).status = .faulted := rfl
@[simp] theorem State.faultedWith_faultCause (s : State) (c : FaultCause) (v : Cell) :
    (s.faultedWith c v).faultCause = c := rfl
@[simp] theorem State.faultedWith_faultInfo (s : State) (c : FaultCause) (v : Cell) :
    (s.faultedWith c v).faultInfo = v := rfl
@[simp] theorem State.faultedWith_answers (s : State) (c : FaultCause) (v : Cell) :
    (s.faultedWith c v).answers = s.answers := rfl
@[simp] theorem State.faultedWith_trace (s : State) (c : FaultCause) (v : Cell) :
    (s.faultedWith c v).trace = s.trace := rfl
@[simp] theorem State.faultedWith_reg (s : State) (c : FaultCause) (v : Cell) (j : Fin 8) :
    (s.faultedWith c v).reg j = s.reg j := by simp [State.reg]

/-- The trace of a request is that of the state, or that with the request's event. -/
theorem State.request_trace (s : State) :
    s.request.trace =
      if s.trace.getLast? = some .lineRequest then s.trace else s.trace ++ [.lineRequest] := by
  unfold State.request
  split <;> rfl

/-- The trace after an answer, in the terms of the statements. -/
theorem State.request_take_trace (s : State) (r : HostAnswer) (later : List HostAnswer) :
    (s.request.take r later).trace = answeredTrace s r := by
  rw [State.take_trace, State.request_trace, answeredTrace]

@[simp] theorem State.setReg_reg_same (s : State) (i : Fin 8) (v : Cell) :
    (s.setReg i v).reg i = v := by simp [State.reg]

theorem State.setReg_reg_ne (s : State) {i j : Fin 8} (v : Cell) (h : j ≠ i) :
    (s.setReg i v).reg j = s.reg j := by
  have h' : i.val ≠ j.val := fun e => h (Fin.ext e.symm)
  simp [State.reg, h']

@[simp] theorem State.restore_reg (s : State) (p : Snapshot) (j : Fin 8) :
    (s.restore p).reg j = p.regs[j] := rfl

/-- The parts of a snapshot are those of the state. -/
@[simp] theorem State.snapshot_mem (s : State) : s.snapshot.mem = s.mem := rfl
@[simp] theorem State.snapshot_stack (s : State) : s.snapshot.stack = s.stack := rfl
@[simp] theorem State.snapshot_regs (s : State) : s.snapshot.regs = s.regs := rfl
@[simp] theorem State.snapshot_pc (s : State) : s.snapshot.pc = s.pc := rfl
@[simp] theorem State.snapshot_queue (s : State) : s.snapshot.queue = s.queue := rfl

/-- Taking a fault is the faulted state of its cause and value. -/
theorem State.raise_eq_faultedWith (s : State) (r : Raised) :
    s.raise r = s.faultedWith r.cause r.info := rfl

/-- Every raise records a cause. -/
theorem Raised.cause_ne_noFault (r : Raised) : r.cause ≠ .noFault := by
  cases r <;> simp [Raised.cause]

end Sys2Proof.Machine
end

