-- ==== Sys2Proof/Laws/Memory.lean ====
section
/-! SUPPORT. Memory: a read gives what was last written there, a write leaves every other address,
and every operation keeps the canonical form. -/

namespace Sys2Proof.Machine

/-! ### The sparse list -/

theorem Memory.lookup_eq_unlisted {cells : List (Nat × Cell)} {a : Nat}
    (h : ∀ p ∈ cells, p.1 ≠ a) : Memory.lookup cells a = Memory.unlisted := by
  induction cells with
  | nil => rfl
  | cons p rest ih =>
    have hp := h p (by simp)
    simp only [Memory.lookup, hp, if_false]
    exact ih fun q hq => h q (by simp [hq])

theorem Memory.lookup_filter_ne (cells : List (Nat × Cell)) {a b : Nat} (h : b ≠ a) :
    Memory.lookup (cells.filter fun p => p.1 ≠ a) b = Memory.lookup cells b := by
  induction cells with
  | nil => rfl
  | cons p rest ih =>
    by_cases hp : p.1 = a
    · have : p.1 ≠ b := fun e => h (e ▸ hp)
      simp_all [Memory.lookup]
    · simp_all [Memory.lookup]

theorem Memory.lookup_insertCell (cells : List (Nat × Cell)) (a : Nat) (v : Cell) (b : Nat)
    (h : ∀ p ∈ cells, p.1 ≠ a) :
    Memory.lookup (Memory.insertCell a v cells) b =
      if b = a then v else Memory.lookup cells b := by
  induction cells with
  | nil => simp [Memory.insertCell, Memory.lookup, eq_comm]
  | cons p rest ih =>
    have hp := h p (by simp)
    have ih := ih fun q hq => h q (by simp [hq])
    unfold Memory.insertCell
    split
    · simp [Memory.lookup, eq_comm]
    · by_cases hb : p.1 = b
      · have : b ≠ a := fun e => hp (hb.trans e)
        simp [Memory.lookup, hb, this]
      · simp [Memory.lookup, hb, ih]

/-- The cells of a stored list: the new value at its address, the old ones elsewhere. -/
theorem Memory.lookup_storeCell (cells : List (Nat × Cell)) (a : Nat) (v : Cell) (b : Nat) :
    Memory.lookup (Memory.storeCell cells a v) b =
      if b = a then v else Memory.lookup cells b := by
  have hne : ∀ p ∈ cells.filter (fun p => p.1 ≠ a), p.1 ≠ a := by simp
  unfold Memory.storeCell
  split
  · next hv =>
    by_cases hb : b = a
    · subst hb
      rw [if_pos rfl, Memory.lookup_eq_unlisted hne, hv]
    · simp only [hb, if_false, Memory.lookup_filter_ne cells hb]
  · rw [Memory.lookup_insertCell _ _ _ _ hne]
    by_cases hb : b = a
    · simp [hb]
    · simp only [hb, if_false, Memory.lookup_filter_ne cells hb]

theorem Memory.mem_insertCell {cells : List (Nat × Cell)} {a : Nat} {v : Cell} {q : Nat × Cell}
    (h : q ∈ Memory.insertCell a v cells) : q = (a, v) ∨ q ∈ cells := by
  induction cells with
  | nil => simpa [Memory.insertCell] using h
  | cons p rest ih =>
    unfold Memory.insertCell at h
    split at h
    · simpa using h
    · rcases List.mem_cons.1 h with h | h
      · simp [h]
      · rcases ih h with h | h <;> simp [h]

theorem Memory.insertCell_rising {cells : List (Nat × Cell)} {a : Nat} {v : Cell}
    (h : cells.Pairwise fun p q => p.1 < q.1) (hne : ∀ p ∈ cells, p.1 ≠ a) :
    (Memory.insertCell a v cells).Pairwise fun p q => p.1 < q.1 := by
  induction cells with
  | nil => simp [Memory.insertCell]
  | cons p rest ih =>
    have hp := hne p (by simp)
    obtain ⟨h1, h2⟩ := List.pairwise_cons.1 h
    unfold Memory.insertCell
    split
    · next hlt =>
      refine List.pairwise_cons.2 ⟨fun q hq => ?_, h⟩
      rcases List.mem_cons.1 hq with rfl | hq
      · exact hlt
      · exact lt_trans hlt (h1 q hq)
    · next hge =>
      refine List.pairwise_cons.2 ⟨fun q hq => ?_, ih h2 fun q hq => hne q (by simp [hq])⟩
      rcases Memory.mem_insertCell hq with rfl | hq
      · simp only; omega
      · exact h1 q hq

/-! ### Reading and writing -/

@[simp] theorem Memory.write_size (m : Memory) (a : Nat) (v : Cell) :
    (m.write a v).size = m.size := rfl

/-- A read after a write: the value written at its own address, the old cell at any other. -/
theorem Memory.read_write (m : Memory) (a : Nat) (v : Cell) (b : Nat) (ha : a < m.size) :
    (m.write a v).read b = if b = a then some v else m.read b := by
  unfold Memory.read
  by_cases hb : b = a
  · simp [hb, ha, Memory.write, Memory.lookup_storeCell]
  · simp [hb, Memory.write, Memory.lookup_storeCell]

theorem Memory.read_eq_none_iff (m : Memory) (a : Nat) : m.read a = none ↔ m.size ≤ a := by
  simp [Memory.read]

theorem Memory.lt_size_of_read {m : Memory} {a : Nat} {c : Cell} (h : m.read a = some c) :
    a < m.size := by
  by_contra hn
  rw [(m.read_eq_none_iff a).2 (by omega)] at h
  cases h

/-- The canonical form, spelled out. -/
theorem Memory.wf_iff (m : Memory) :
    m.wf = true ↔ 1 ≤ m.size ∧ m.size ≤ 32768 ∧ (m.cells.Pairwise fun p q => p.1 < q.1) ∧
      ∀ p ∈ m.cells, p.1 < m.size ∧ p.2 ≠ Memory.unlisted := decide_eq_true_iff

/-- A write to an address that exists keeps the canonical form. -/
theorem Memory.write_wf {m : Memory} (h : m.wf = true) {a : Nat} (ha : a < m.size) (v : Cell) :
    (m.write a v).wf = true := by
  rw [Memory.wf_iff] at h ⊢
  obtain ⟨h1, h2, h3, h4⟩ := h
  have hr := h3.filter fun p : Nat × Cell => decide (p.1 ≠ a)
  have hne : ∀ p ∈ m.cells.filter (fun p => p.1 ≠ a), p.1 ≠ a := by simp
  refine ⟨h1, h2, ?_, ?_⟩
  · unfold Memory.write Memory.storeCell
    dsimp only
    split
    · exact hr
    · exact Memory.insertCell_rising hr hne
  · intro p hp
    unfold Memory.write Memory.storeCell at hp
    dsimp only at hp
    split at hp
    · exact h4 p (List.mem_filter.1 hp).1
    · next hv =>
      rcases Memory.mem_insertCell hp with rfl | hp
      · exact ⟨ha, hv⟩
      · exact h4 p (List.mem_filter.1 hp).1

/-- The memory of State.reset is in canonical form. -/
theorem reset_mem_wf : State.reset.mem.wf = true := by decide

/-! ### An image -/

theorem Memory.lookup_listImage_lt (image : List Cell) {a b : Nat} (h : b < a) :
    Memory.lookup (Memory.listImage a image) b = Memory.unlisted := by
  induction image generalizing a with
  | nil => rfl
  | cons c rest ih =>
    unfold Memory.listImage
    split
    · exact ih (by omega)
    · rw [Memory.lookup, if_neg (by simp only; omega), ih (by omega)]

theorem Memory.lookup_listImage (image : List Cell) (a k : Nat) :
    Memory.lookup (Memory.listImage a image) (a + k) = image.getD k Memory.unlisted := by
  induction image generalizing a k with
  | nil => rfl
  | cons c rest ih =>
    unfold Memory.listImage
    cases k with
    | zero =>
      split
      · next hc => simpa [hc] using Memory.lookup_listImage_lt rest (Nat.lt_succ_self a)
      · simp [Memory.lookup]
    | succ k =>
      have ih := ih (a + 1) k
      rw [show a + 1 + k = a + (k + 1) by omega] at ih
      split
      · simpa using ih
      · rw [Memory.lookup, if_neg (by simp only; omega)]
        simpa using ih

/-- The memory of an image gives cell a of the image at address a, and nothing beyond it. -/
theorem Memory.read_ofImage (image : List Cell) (a : Nat) :
    (Memory.ofImage image).read a = image[a]? := by
  unfold Memory.read Memory.ofImage
  dsimp only
  have h := Memory.lookup_listImage image 0 a
  rw [Nat.zero_add] at h
  split
  · next ha => simp [h, ha]
  · next ha => simp [Nat.le_of_not_lt ha]

theorem Memory.mem_listImage {image : List Cell} {a : Nat} {p : Nat × Cell}
    (h : p ∈ Memory.listImage a image) :
    a ≤ p.1 ∧ p.1 < a + image.length ∧ p.2 ≠ Memory.unlisted := by
  induction image generalizing a with
  | nil => cases h
  | cons c rest ih =>
    unfold Memory.listImage at h
    split at h
    · have := ih h
      simp only [List.length_cons]
      exact ⟨by omega, by omega, this.2.2⟩
    · next hc =>
      rcases List.mem_cons.1 h with rfl | h
      · exact ⟨le_refl _, by simp, hc⟩
      · have := ih h
        simp only [List.length_cons]
        exact ⟨by omega, by omega, this.2.2⟩

theorem Memory.listImage_rising (image : List Cell) (a : Nat) :
    (Memory.listImage a image).Pairwise fun p q => p.1 < q.1 := by
  induction image generalizing a with
  | nil => exact List.Pairwise.nil
  | cons c rest ih =>
    unfold Memory.listImage
    split
    · exact ih (a + 1)
    · refine List.pairwise_cons.2 ⟨fun q hq => ?_, ih (a + 1)⟩
      have := (Memory.mem_listImage hq).1
      simp only
      omega

/-- The memory of an image of legal length is in canonical form. -/
theorem Memory.ofImage_wf {image : List Cell} (h1 : 1 ≤ image.length)
    (h2 : image.length ≤ 32768) : (Memory.ofImage image).wf = true := by
  refine (Memory.wf_iff _).2 ⟨h1, h2, Memory.listImage_rising image 0, fun p hp => ?_⟩
  have := Memory.mem_listImage hp
  exact ⟨by simpa [Memory.ofImage] using this.2.1, this.2.2⟩

/-! ### The state's own accesses -/

/-- Everything MemRead can do (R52). -/
theorem memRead_cases (s : State) (a : Nat) :
    (∃ c, s.mem.read a = some c ∧ a < s.mem.size ∧ memRead s a = .ok c) ∨
    (s.mem.size ≤ a ∧ memRead s a = .error (.memoryBounds a)) := by
  unfold memRead
  cases h : s.mem.read a with
  | some c => exact .inl ⟨c, rfl, Memory.lt_size_of_read h, rfl⟩
  | none => exact .inr ⟨(s.mem.read_eq_none_iff a).1 h, rfl⟩

/-- Everything MemWrite can do (R53). -/
theorem memWrite_cases (a : Nat) (v : Cell) (s : State) :
    (a < s.mem.size ∧ memWrite a v s = .ok { s with mem := s.mem.write a v }) ∨
    (s.mem.size ≤ a ∧ memWrite a v s = .error (.memoryBounds a)) := by
  unfold memWrite
  split
  · exact .inl ⟨‹_›, rfl⟩
  · exact .inr ⟨by omega, rfl⟩

/-- Placing cells keeps the canonical form and the size. -/
theorem placeCells_wf {m : Memory} (h : m.wf = true) (a : Nat) (cells : List Cell) :
    (placeCells m a cells).wf = true ∧ (placeCells m a cells).size = m.size := by
  induction cells generalizing m a with
  | nil => exact ⟨h, rfl⟩
  | cons c rest ih =>
    unfold placeCells
    split
    · exact ih (Memory.write_wf h ‹_› c) (a + 1)
    · exact ih h (a + 1)

end Sys2Proof.Machine
end

