-- ==== Sys2Proof/Laws/Operands.lean ====
section
/-! SUPPORT. One lemma per shared operation over operands, the stack, the queue and the end of a
rule, saying everything it can do. -/

namespace Sys2Proof.Machine

/-! ### The end of a rule -/

@[simp] theorem finish_ok (s t : State) : finish s (.ok t) = .next t := rfl

@[simp] theorem finish_error (s : State) (r : Raised) : finish s (.error r) = .next (s.raise r) :=
  rfl

/-- A rule ends in a next state: the one it computed, or the fault it raised taken in its first
state. -/
theorem finish_cases {s t : State} {e : Except Raised State} (h : finish s e = .next t) :
    e = .ok t ∨ ∃ r, e = .error r ∧ t = s.raise r := by
  cases e with
  | ok u => simp only [finish, Host.Outcome.next.injEq] at h; exact .inl (h ▸ rfl)
  | error r => simp only [finish, Host.Outcome.next.injEq] at h; exact .inr ⟨r, rfl, h.symm⟩

theorem finish_next (s : State) (e : Except Raised State) : ∃ t, finish s e = .next t := by
  cases e <;> simp [finish]

/-! ### Resolution -/

/-- Everything Num can do (R111). -/
theorem asNumber_cases (v : Cell) :
    (v.toNat ≤ 32767 ∧ asNumber v = .ok v) ∨
    (32768 ≤ v.toNat ∧ asNumber v = .error (.invalidOperand v)) := by
  unfold asNumber
  split
  · exact .inl ⟨‹_›, rfl⟩
  · exact .inr ⟨by omega, rfl⟩

/-- Everything a redirect can do (R180). -/
theorem jumpTo_cases (v : Cell) (s : State) :
    (v.toNat ≤ 32767 ∧ jumpTo v s = .ok (s.jump v)) ∨
    (32768 ≤ v.toNat ∧ jumpTo v s = .error (.invalidOperand v)) := by
  rcases asNumber_cases v with ⟨h, e⟩ | ⟨h, e⟩
  · exact .inl ⟨h, by rw [jumpTo, e]; rfl⟩
  · exact .inr ⟨h, by rw [jumpTo, e]; rfl⟩

/-- Everything CheckDest can do (R115). -/
theorem checkDest_cases (s : State) (a : Operand) :
    (Accepts s a ∧ checkDest s a = .ok ()) ∨
    (∃ n, a = .number n ∧ s.mem.size ≤ n.toNat ∧
      checkDest s a = .error (.memoryBounds n.toNat)) ∨
    (∃ c, a = .invalid c ∧ checkDest s a = .error (.invalidDestination c)) := by
  cases a with
  | register i => exact .inl ⟨trivial, rfl⟩
  | number n =>
    by_cases h : n.toNat < s.mem.size
    · exact .inl ⟨h, by simp [checkDest, h]⟩
    · exact .inr (.inl ⟨n, rfl, by omega, by simp [checkDest, h]⟩)
  | invalid c => exact .inr (.inr ⟨c, rfl, rfl⟩)

theorem checkDest_of_accepts {s : State} {a : Operand} (h : Accepts s a) :
    checkDest s a = .ok () := by
  cases a with
  | register i => rfl
  | number n => exact if_pos h
  | invalid c => exact h.elim

/-- Everything WriteDest can write (R115, R131). -/
theorem writeDest_cases {a : Operand} {v : Cell} {s t : State} (h : writeDest a v s = .ok t) :
    (∃ i, a = .register i ∧ t = s.setReg i v) ∨
    (∃ n, a = .number n ∧ n.toNat < s.mem.size ∧
      t = { s with mem := s.mem.write n.toNat v }) := by
  cases a with
  | register i => exact .inl ⟨i, rfl, (Except.ok.inj h).symm⟩
  | number n =>
    rcases memWrite_cases n.toNat v s with ⟨hn, e⟩ | ⟨_, e⟩
    · exact .inr ⟨n, rfl, hn, by
        rw [writeDest, e] at h
        exact (Except.ok.inj h).symm⟩
    · rw [writeDest, e] at h; cases h
  | invalid c => cases h

/-- After CheckDest has passed, WriteDest cannot raise, and writes the destination alone (R115). -/
theorem writeDest_of_accepts {a : Operand} {s : State} (h : Accepts s a) (v : Cell) :
    ∃ t, writeDest a v s = .ok t ∧ Wrote s t a v ∧ t.pc = s.pc ∧ SameRest s t := by
  cases a with
  | register i =>
    exact ⟨s.setReg i v, rfl, ⟨by simp, fun j hj => State.setReg_reg_ne s v hj, by simp⟩, rfl,
      by constructor <;> rfl⟩
  | number n =>
    have hn : n.toNat < s.mem.size := h
    refine ⟨{ s with mem := s.mem.write n.toNat v }, by simp [writeDest, memWrite, hn],
      ⟨?_, fun addr ha => ?_, fun _ => rfl⟩, rfl, by constructor <;> rfl⟩
    · simp [Memory.read_write, hn]
    · simp [Memory.read_write, hn, ha]
  | invalid c => exact h.elim

/-! ### Results with a destination -/

/-- A result that is computed goes into an accepted destination (R115, R126, R127). -/
theorem storeResult_ok {s : State} {a : Operand} (h : Accepts s a) (v : Cell) (len : Nat) :
    ∃ t, storeResult a (.ok v) len s = .next t ∧ Wrote s t a v ∧
      t.pc = s.pc + BitVec.ofNat 16 len ∧ SameRest s t := by
  obtain ⟨t, e, hw, hp, hr⟩ := writeDest_of_accepts h v
  refine ⟨t.advance len, by
    rw [storeResult, checkDest_of_accepts h]; simp [bind, Except.bind, e, pure, Except.pure], ?_,
    by simp [hp], ?_⟩
  · cases a <;> simp_all [Wrote]
  · obtain ⟨⟩ := hr; constructor <;> simpa

/-- A result that raises does so once its destination is accepted. -/
theorem storeResult_error {s : State} {a : Operand} (h : Accepts s a) (r : Raised) (len : Nat) :
    storeResult a (.error r) len s = .next (s.raise r) := by
  rw [storeResult, checkDest_of_accepts h]; rfl

/-- A destination that is not accepted faults whatever the result is. -/
theorem storeResult_refuses (s : State) (result : Except Raised Cell) (len : Nat) :
    (∀ n : BitVec 15, s.mem.size ≤ n.toNat →
      storeResult (.number n) result len s = .next (s.raise (.memoryBounds n.toNat))) ∧
    ∀ c, storeResult (.invalid c) result len s = .next (s.raise (.invalidDestination c)) := by
  refine ⟨fun n hn => ?_, fun c => rfl⟩
  simp [storeResult, checkDest, show ¬n.toNat < s.mem.size by omega, bind, Except.bind]

/-- Everything an instruction with a destination can do. -/
theorem storeResult_cases {a : Operand} {result : Except Raised Cell} {len : Nat} {s t : State}
    (h : storeResult a result len s = .next t) :
    (∃ r, t = s.raise r) ∨
    (∃ i v, result = .ok v ∧ a = .register i ∧ t = (s.setReg i v).advance len) ∨
    (∃ n v, result = .ok v ∧ a = .number n ∧ n.toNat < s.mem.size ∧
      t = { s with mem := s.mem.write n.toNat v }.advance len) := by
  rcases finish_cases h with e | ⟨r, _, rfl⟩
  · rcases checkDest_cases s a with ⟨_, hc⟩ | ⟨_, _, _, hc⟩ | ⟨_, _, hc⟩ <;>
      simp only [hc, bind, Except.bind] at e
    · cases result with
      | error r => cases e
      | ok v =>
        cases hw : writeDest a v s with
        | error r => simp [hw] at e
        | ok u =>
          simp only [hw, pure, Except.pure, Except.ok.injEq] at e
          rcases writeDest_cases hw with ⟨i, ha, rfl⟩ | ⟨n, ha, hn, rfl⟩
          · exact .inr (.inl ⟨i, v, rfl, ha, e.symm⟩)
          · exact .inr (.inr ⟨n, v, rfl, ha, hn, e.symm⟩)
    · cases e
    · cases e
  · exact .inl ⟨r, rfl⟩

/-! ### The stack and the queue -/

/-- A capacity in the terms of the statements. -/
theorem fits_iff_room (depth : Option Nat) (n : Nat) : fits depth n = true ↔ Room depth n := by
  cases depth <;> simp [fits, Room]

/-- Everything Push can do (R26). -/
theorem push_cases (v : Cell) (s : State) :
    (Room s.config.stackDepth (s.stack.length + 1) ∧
      push v s = .ok { s with stack := s.stack ++ [v] }) ∨
    (¬Room s.config.stackDepth (s.stack.length + 1) ∧ push v s = .error (.stackOverflow v)) := by
  unfold push
  rw [← fits_iff_room]
  split
  · exact .inl ⟨‹_›, rfl⟩
  · exact .inr ⟨‹_›, rfl⟩

/-- Everything Enqueue can do (R29). -/
theorem enqueue_cases (cells : List Cell) (s : State) :
    (Room s.config.queueDepth (s.queue.length + cells.length) ∧
      enqueue cells s = .ok { s with queue := s.queue ++ cells }) ∨
    (¬Room s.config.queueDepth (s.queue.length + cells.length) ∧
      enqueue cells s = .error (.queueOverflow cells.length)) := by
  unfold enqueue
  rw [← fits_iff_room]
  split
  · exact .inl ⟨‹_›, rfl⟩
  · exact .inr ⟨‹_›, rfl⟩

/-- Pop on a stack with a top takes it (R27). -/
theorem pop_append {s : State} {below : List Cell} {v : Cell} (h : s.stack = below ++ [v]) :
    pop s = some (v, { s with stack := below }) := by
  simp [pop, h]

/-- Everything Pop can do (R27). -/
theorem pop_cases (s : State) :
    (s.stack = [] ∧ pop s = none) ∨
    ∃ below v, s.stack = below ++ [v] ∧ pop s = some (v, { s with stack := below }) := by
  rcases List.eq_nil_or_concat s.stack with h | ⟨below, v, h⟩
  · exact .inl ⟨h, by simp [pop, h]⟩
  · exact .inr ⟨below, v, by simpa using h, pop_append (by simpa using h)⟩

/-- Dequeue on a queue with a front takes it (R30). -/
theorem dequeue_cons {s : State} {ch : Cell} {later : List Cell} (h : s.queue = ch :: later) :
    dequeue s = some (ch, { s with queue := later }) := by
  simp [dequeue, h]

end Sys2Proof.Machine
end

