-- ==== Sys2Proof/Laws/Step.lean ====
section
/-! SUPPORT. What a fetch reads and what a step can do. -/

namespace Sys2Proof.Machine

/-! ### The fetch -/

/-- The k-th cell of a run of cells read is the cell of memory there. -/
theorem Memory.getElem?_readFrom (m : Memory) (a n k : Nat) (hk : k < n) :
    (m.readFrom a n)[k]? = m.read (a + k) := by
  induction n generalizing a k with
  | zero => omega
  | succ n ih =>
    unfold Memory.readFrom
    cases hr : m.read a with
    | none =>
      have : m.size ≤ a := (m.read_eq_none_iff a).1 hr
      have : m.read (a + k) = none := (m.read_eq_none_iff _).2 (by omega)
      simp [this]
    | some c =>
      cases k with
      | zero => simp [hr]
      | succ k =>
        rw [List.getElem?_cons_succ, ih (a + 1) k (by omega)]
        congr 1
        omega

/-- The k-th cell fetched is the cell of memory at pc + k (R113). -/
theorem getElem?_fetchCells (s : State) {k : Nat} (hk : k < 4) :
    (fetchCells s)[k]? = s.mem.read (s.pc.toNat + k) :=
  Memory.getElem?_readFrom _ _ _ _ hk

/-- The first cell fetched is the opcode cell. -/
theorem head?_fetchCells (s : State) : (fetchCells s).head? = s.mem.read s.pc.toNat := by
  rw [List.head?_eq_getElem?, getElem?_fetchCells s (by omega), Nat.add_zero]

/-- With an opcode cell in memory, the fetch is that cell and the operand cells after it. -/
theorem fetchCells_cons {s : State} {op : Cell} (h : s.mem.read s.pc.toNat = some op) :
    fetchCells s = op :: s.mem.readFrom (s.pc.toNat + 1) 3 := by
  simp [fetchCells, Memory.readFrom, h]

theorem Memory.length_readFrom_le (m : Memory) (a n : Nat) : (m.readFrom a n).length ≤ n := by
  induction n generalizing a with
  | zero => simp [Memory.readFrom]
  | succ n ih =>
    unfold Memory.readFrom
    split
    · simpa using ih (a + 1)
    · simp

/-- Memory and the pc alone say what is fetched. -/
theorem fetchCells_congr {s t : State} (hm : t.mem = s.mem) (hp : t.pc = s.pc) :
    fetchCells t = fetchCells s := by simp [fetchCells, hm, hp]

/-! ### The step -/

theorem step_running {s : State} (h : s.status = .running) :
    step s = runDecoded s (decode (fetchCells s)) := by simp [step, h]

theorem step_over {s : State} (h : s.over) : step s = .next s := by
  cases hs : s.status <;> simp_all [step, State.over]

/-- Everything a step can do: nothing in a stopped machine, else the instruction, the skip, or the
fault its decoded cells say (R125, R129). -/
theorem step_cases {s t : State} (h : step s = .next t) :
    (s.over ∧ t = s) ∨
    (s.status = .running ∧
      ((∃ i rest, decode (fetchCells s) = .instr i rest ∧ exec i s = .next t) ∨
       (∃ op, decode (fetchCells s) = .unknownOpcode op ∧ t = skipUnknown op s) ∨
       (∃ k, decode (fetchCells s) = .missing k ∧
          t = s.raise (.memoryBounds (s.pc.toNat + k))))) := by
  by_cases hs : s.status = .running
  · rw [step_running hs] at h
    refine .inr ⟨hs, ?_⟩
    cases hd : decode (fetchCells s) with
    | instr i rest => exact .inl ⟨i, rest, rfl, by simpa [hd, runDecoded] using h⟩
    | unknownOpcode op =>
      rw [hd] at h
      exact .inr (.inl ⟨op, rfl, (Host.Outcome.next.inj h).symm⟩)
    | missing k =>
      rw [hd] at h
      exact .inr (.inr ⟨k, rfl, (Host.Outcome.next.inj h).symm⟩)
  · rw [step_over hs] at h
    exact .inl ⟨hs, (Host.Outcome.next.inj h).symm⟩

end Sys2Proof.Machine
end

