-- ==== Sys2Proof/Laws/Exec.lean ====
section
/-! SUPPORT. Everything an instruction can do, said once: the next states of exec by the edits they
make, so that no later proof unfolds the meanings again. -/

namespace Sys2Proof.Machine

/-- What an instruction has done to `s` before it moves the pc. -/
inductive Edited (i : Instr) (s : State) : State → Prop
  | same : Edited i s s
  | stopped (h : i = .halt ∨ (i = .ret ∧ s.stack = [])) : Edited i s s.stop
  | wroteReg (r : Fin 8) (v : Cell) : Edited i s (s.setReg r v)
  | wroteMem (n : Nat) (v : Cell) (h : n < s.mem.size) :
      Edited i s { s with mem := s.mem.write n v }
  | pushed (v : Cell) (h : Room s.config.stackDepth (s.stack.length + 1)) :
      Edited i s { s with stack := s.stack ++ [v] }
  | popped (below : List Cell) (v : Cell) (h : s.stack = below ++ [v]) :
      Edited i s { s with stack := below }
  | poppedTo (below : List Cell) (v : Cell) (h : s.stack = below ++ [v]) (a : Operand)
      (u : State) (hu : writeDest a v { s with stack := below } = .ok u) : Edited i s u
  | tookTo (ch : Cell) (later : List Cell) (h : s.queue = ch :: later) (a : Operand)
      (u : State) (hu : writeDest a ch { s with queue := later } = .ok u) : Edited i s u
  | wroteOut (a : Operand) (h : i = .out a) (hv : (value s a).toNat ≤ s.config.outMax) :
      Edited i s (s.emit (.outChar (value s a)))

/-- What the host's answer `r` leaves of `s`, the state with the answer taken. -/
inductive Answered (a : Operand) (s : State) : HostAnswer → State → Prop
  | raised (r : HostAnswer) (f : Raised) : Answered a s r (s.raise f)
  | delivered (bytes : List Cell) (ch : Cell) (later : List Cell)
      (hb : bytes ++ [10] = ch :: later)
      (hq : Room s.config.queueDepth (s.queue.length + (bytes.length + 1)))
      (u : State) (hu : writeDest a ch { s with queue := later } = .ok u) :
      Answered a s (.line bytes) (u.advance 2)
  | saved : Answered a s .save (s.emit (.handOver s.snapshot))
  | loaded (p : Snapshot) (hp : p.legal s = true)
      (hq : Room s.config.queueDepth (p.queue.length + 5)) :
      Answered a s (.load p) { s.restore p with queue := p.queue ++ lookLine }
  | rejected : Answered a s .reject s

/-- The next states of an instruction. -/
inductive Done (i : Instr) (s : State) : State → Prop
  | raised (r : Raised) : Done i s (s.raise r)
  | advanced (u : State) (h : Edited i s u) : Done i s (u.advance i.length)
  | jumped (u : State) (v : Cell) (h : Edited i s u) (hs : u.status = s.status)
      (hv : v.toNat ≤ 32767) : Done i s (u.jump v)
  | held (a : Operand) (hi : i = .inp a) (hq : s.queue = []) (h : s.answers = []) :
      Done i s s.request
  | answered (a : Operand) (hi : i = .inp a) (hq : s.queue = []) (r : HostAnswer)
      (later : List HostAnswer) (h : s.answers = r :: later) (t : State)
      (ht : Answered a (s.request.take r later) r t) : Done i s t

theorem Edited.of_writeDest {i : Instr} {a : Operand} {v : Cell} {s u : State}
    (h : writeDest a v s = .ok u) : Edited i s u := by
  rcases writeDest_cases h with ⟨r, -, rfl⟩ | ⟨n, -, hn, rfl⟩
  · exact .wroteReg r v
  · exact .wroteMem n.toNat v hn

/-- An instruction that stores a result either faults or has written it and advanced. -/
theorem Done.of_storeResult {i : Instr} {a : Operand} {result : Except Raised Cell} {len : Nat}
    {s t : State} (hlen : i.length = len) (h : storeResult a result len s = .next t) :
    Done i s t := by
  subst hlen
  rcases storeResult_cases h with ⟨r, rfl⟩ | ⟨r, v, -, -, rfl⟩ | ⟨n, v, -, -, hn, rfl⟩
  · exact .raised r
  · exact .advanced _ (.wroteReg r v)
  · exact .advanced _ (.wroteMem n.toNat v hn)

/-- A redirect either faults or has gone to a number. -/
theorem Done.of_jumpTo {i : Instr} {v : Cell} {s u t : State} (hu : Edited i s u)
    (hs : u.status = s.status) (h : finish s (jumpTo v u) = .next t) : Done i s t := by
  rcases jumpTo_cases v u with ⟨hv, e⟩ | ⟨-, e⟩ <;> rw [e] at h <;>
    obtain rfl := Host.Outcome.next.inj h
  · exact .jumped u v hu hs hv
  · exact .raised _

theorem answered_of_answer {a : Operand} {r : HostAnswer} {s t : State} (hq : s.queue = [])
    (h : answer a r s = .next t) : Answered a s r t := by
  cases r with
  | line bytes =>
    simp only [answer] at h
    split at h
    · rcases enqueue_cases (bytes ++ [10]) s with ⟨hr, e⟩ | ⟨-, e⟩
      · obtain ⟨ch, later, hb⟩ : ∃ ch later, bytes ++ [10] = ch :: later :=
          List.exists_cons_of_ne_nil (by simp)
        rcases finish_cases h with h | ⟨f, -, rfl⟩
        · rw [e] at h
          simp only [bind, Except.bind, deliver, dequeue, hq, List.nil_append, hb] at h
          cases hw : writeDest a ch { s with queue := later } with
          | error f => rw [hw] at h; cases h
          | ok u =>
            rw [hw] at h
            obtain rfl := Except.ok.inj h
            exact .delivered bytes ch later hb (by simpa using hr) u hw
        · exact .raised _ f
      · rw [e] at h
        obtain rfl := Host.Outcome.next.inj h
        exact .raised _ _
    · cases h
  | save => obtain rfl := Host.Outcome.next.inj h; exact .saved
  | load p =>
    simp only [answer] at h
    split at h
    · next hp =>
      rcases enqueue_cases lookLine (s.restore p) with ⟨hr, e⟩ | ⟨-, e⟩ <;> rw [e] at h <;>
        obtain rfl := Host.Outcome.next.inj h
      · exact .loaded p hp (by simpa [lookLine] using hr)
      · exact .raised _ _
    · cases h
  | reject => obtain rfl := Host.Outcome.next.inj h; exact .rejected
  | fail => obtain rfl := Host.Outcome.next.inj h; exact .raised _ _

/-- Everything `in` can do (R232). -/
theorem Done.of_execInp {a : Operand} {s t : State} (h : execInp a s = .next t) :
    Done (.inp a) s t := by
  rcases checkDest_cases s a with ⟨-, e⟩ | ⟨n, -, -, e⟩ | ⟨c, -, e⟩ <;>
    simp only [execInp, e] at h
  · cases hq : s.queue with
    | nil =>
      simp only [hq, ask] at h
      cases hr : s.answers with
      | nil =>
        simp only [hr] at h
        obtain rfl := Host.Outcome.next.inj h
        exact .held a rfl hq hr
      | cons r later =>
        simp only [hr] at h
        exact .answered a rfl hq r later hr t (answered_of_answer (by simpa using hq) h)
    | cons ch later =>
      simp only [hq] at h
      rcases finish_cases h with h | ⟨f, -, rfl⟩
      · simp only [deliver, dequeue_cons hq, bind, Except.bind] at h
        cases hw : writeDest a ch { s with queue := later } with
        | error f => rw [hw] at h; cases h
        | ok u =>
          rw [hw] at h
          obtain rfl := Except.ok.inj h
          exact .advanced u (.tookTo ch later hq a u hw)
      · exact .raised f
  · obtain rfl := Host.Outcome.next.inj h; exact .raised _
  · obtain rfl := Host.Outcome.next.inj h; exact .raised _

/-- Everything `pop` can do (R162). -/
theorem Done.of_execPop {a : Operand} {s t : State} (h : execPop a s = .next t) :
    Done (.pop a) s t := by
  rcases finish_cases h with h | ⟨f, -, rfl⟩
  · rcases pop_cases s with ⟨-, e⟩ | ⟨below, v, hs, e⟩ <;> simp only [e] at h
    · cases h
    · cases hc : checkDest s a with
      | error f => rw [hc] at h; cases h
      | ok _ =>
        cases hw : writeDest a v { s with stack := below } with
        | error f => rw [hc] at h; simp only [bind, Except.bind, hw] at h; cases h
        | ok u =>
          rw [hc] at h
          simp only [bind, Except.bind, hw] at h
          obtain rfl := Except.ok.inj h
          exact .advanced u (.poppedTo below v hs a u hw)
  · exact .raised f

/-- Everything `set` can do (R160). -/
theorem Done.of_execSet {a b : Operand} {s t : State} (h : execSet a b s = .next t) :
    Done (.set a b) s t := by
  rcases finish_cases h with h | ⟨f, -, rfl⟩
  · cases a with
    | register r => obtain rfl := Except.ok.inj h; exact .advanced _ (.wroteReg r _)
    | number n => cases h
    | invalid c => cases h
  · exact .raised f

/-- Everything `push` can do (R161). -/
theorem Done.of_execPush {a : Operand} {s t : State} (h : execPush a s = .next t) :
    Done (.push a) s t := by
  unfold execPush at h
  rcases push_cases (value s a) s with ⟨hr, e⟩ | ⟨-, e⟩ <;> rw [e] at h <;>
    obtain rfl := Host.Outcome.next.inj h
  · exact .advanced _ (.pushed _ hr)
  · exact .raised _

/-- Everything `wmem` can do (R211). -/
theorem Done.of_execWmem {a b : Operand} {s t : State} (h : execWmem a b s = .next t) :
    Done (.wmem a b) s t := by
  unfold execWmem at h
  rcases asNumber_cases (value s a) with ⟨-, e⟩ | ⟨-, e⟩ <;> rw [e] at h
  · rcases memWrite_cases (value s a).toNat (value s b) s with ⟨hn, e⟩ | ⟨-, e⟩ <;>
      simp only [bind, Except.bind, e] at h <;> obtain rfl := Host.Outcome.next.inj h
    · exact .advanced _ (.wroteMem _ _ hn)
    · exact .raised _
  · obtain rfl := Host.Outcome.next.inj h; exact .raised _

/-- Everything `call` can do (R220). -/
theorem Done.of_execCall {a : Operand} {s t : State} (h : execCall a s = .next t) :
    Done (.call a) s t := by
  unfold execCall at h
  rcases asNumber_cases (value s a) with ⟨hv, e⟩ | ⟨-, e⟩ <;> rw [e] at h
  · rcases push_cases (s.pc + 2) s with ⟨hr, e⟩ | ⟨-, e⟩ <;>
      simp only [bind, Except.bind, e] at h <;> obtain rfl := Host.Outcome.next.inj h
    · exact .jumped _ _ (.pushed _ hr) rfl hv
    · exact .raised _
  · obtain rfl := Host.Outcome.next.inj h; exact .raised _

/-- Everything `ret` can do (R221). -/
theorem Done.of_execRet {s t : State} (h : execRet s = .next t) : Done .ret s t := by
  rcases pop_cases s with ⟨hs, e⟩ | ⟨below, v, hs, e⟩ <;> simp only [execRet, e] at h
  · obtain rfl := Host.Outcome.next.inj h
    exact .advanced _ (.stopped (.inr ⟨rfl, hs⟩))
  · exact .of_jumpTo (.popped below v hs) rfl h

/-- Everything `out` can do (R230). -/
theorem Done.of_execOut {a : Operand} {s t : State} (h : execOut a s = .next t) :
    Done (.out a) s t := by
  unfold execOut toChar at h
  split at h <;> obtain rfl := Host.Outcome.next.inj h
  · exact .advanced _ (.wroteOut a rfl ‹_›)
  · exact .raised _

/-- A conditional jump, taken or not, is a redirect or an advance (R181, R182). -/
theorem Done.of_branch {i : Instr} {taken : Prop} [Decidable taken] {v : Cell} {s t : State}
    (hlen : i.length = 3)
    (h : finish s (if taken then jumpTo v s else .ok (s.advance 3)) = .next t) : Done i s t := by
  split at h
  · exact .of_jumpTo .same rfl h
  · obtain rfl := Host.Outcome.next.inj h
    exact hlen ▸ .advanced s .same

/-- Everything an instruction that answers a next state can have done. -/
theorem done_of_exec {i : Instr} {s t : State} (h : exec i s = .next t) : Done i s t := by
  cases i with
  | halt => obtain rfl := Host.Outcome.next.inj h; exact .advanced _ (.stopped (.inl rfl))
  | set a b => exact .of_execSet h
  | push a => exact .of_execPush h
  | pop a => exact .of_execPop h
  | eq a b c => exact .of_storeResult rfl h
  | gt a b c => exact .of_storeResult rfl h
  | jmp a => exact .of_jumpTo .same rfl h
  | jt a b => exact .of_branch rfl h
  | jf a b => exact .of_branch rfl h
  | add a b c => exact .of_storeResult rfl h
  | mult a b c => exact .of_storeResult rfl h
  | mod a b c => exact .of_storeResult rfl h
  | and a b c => exact .of_storeResult rfl h
  | or a b c => exact .of_storeResult rfl h
  | not a b => exact .of_storeResult rfl h
  | rmem a b => exact .of_storeResult rfl h
  | wmem a b => exact .of_execWmem h
  | call a => exact .of_execCall h
  | ret => exact .of_execRet h
  | out a => exact .of_execOut h
  | inp a => exact .of_execInp h
  | noop => obtain rfl := Host.Outcome.next.inj h; exact .advanced _ .same

end Sys2Proof.Machine
end

