-- ==== Sys2Proof/Laws/InOut.lean ====
section
/-! SUPPORT. How an `in` comes to its queue, its request and its answer (R232 to R238). -/

namespace Sys2Proof.Machine

/-- With an accepted destination and an empty queue, `in` asks the host (R234). -/
theorem execInp_asks {a : Operand} {s : State} (ha : Accepts s a) (hq : s.queue = []) :
    exec (.inp a) s = ask a s := by
  show execInp a s = _
  rw [execInp, checkDest_of_accepts ha]
  simp only [hq]

/-- The state with the answer taken: the answers to come and the trace are all that changed. -/
theorem State.request_take (s : State) (r : HostAnswer) (later : List HostAnswer) :
    s.request.take r later = { s with answers := later, trace := answeredTrace s r } := by
  rw [← State.request_take_trace s r later]
  unfold State.take State.request State.emit
  split <;> rfl

/-- With an answer to come, `in` does what the answer does (R235). -/
theorem execInp_answered {a : Operand} {s : State} (ha : Accepts s a) (hq : s.queue = [])
    {r : HostAnswer} {later : List HostAnswer} (hr : s.answers = r :: later) :
    exec (.inp a) s = answer a r { s with answers := later, trace := answeredTrace s r } := by
  rw [execInp_asks ha hq, ask, hr, ← State.request_take]

/-- The well-formedness of a `Load` answer, spelled out (R238). -/
theorem Snapshot.legal_iff (p : Snapshot) (s : State) :
    p.legal s = true ↔ p.mem.wf = true ∧ p.mem.size = s.mem.size ∧ p.pc.toNat ≤ 32771 ∧
      Room s.config.stackDepth p.stack.length := by
  simp [Snapshot.legal, and_assoc, fits_iff_room]

/-- A legal line, spelled out (R236, R243). -/
theorem legalLine_iff (bytes : List Cell) :
    legalLine bytes = true ↔ (∀ b ∈ bytes, b.toNat ≤ 127) ∧ bytes ≠ [115, 97, 118, 101] ∧
      bytes ≠ [108, 111, 97, 100] := by
  simp only [legalLine, Bool.and_eq_true, decide_eq_true_eq, List.all_eq_true, and_assoc]

end Sys2Proof.Machine
end

