-- ==== Sys2Proof/Laws/PerInstr.lean ====
section
/-! SUPPORT. The family CellsOfLength: an encoding has 1 to 4 cells, as many as the instruction's
length, and begins with the instruction's code, which is one of 0..21 (R80, R84, R86). -/

namespace Sys2Proof.Laws.CellsOfLength

/-- What the family says of one instruction. -/
def Statement (i : Instr) : Prop :=
  (encode i).length = i.length ∧ i.length ≤ 4 ∧ (encode i).head? = some i.code ∧
    i.code.toNat ≤ 21

theorem halt : Statement .halt :=
  ⟨rfl, by simp [Instr.length, Instr.operands], rfl, by simp [Instr.code]⟩

theorem set (a b : Operand) : Statement (.set a b) :=
  ⟨rfl, by simp [Instr.length, Instr.operands], rfl, by simp [Instr.code]⟩

theorem push (a : Operand) : Statement (.push a) :=
  ⟨rfl, by simp [Instr.length, Instr.operands], rfl, by simp [Instr.code]⟩

theorem pop (a : Operand) : Statement (.pop a) :=
  ⟨rfl, by simp [Instr.length, Instr.operands], rfl, by simp [Instr.code]⟩

theorem eq (a b c : Operand) : Statement (.eq a b c) :=
  ⟨rfl, by simp [Instr.length, Instr.operands], rfl, by simp [Instr.code]⟩

theorem gt (a b c : Operand) : Statement (.gt a b c) :=
  ⟨rfl, by simp [Instr.length, Instr.operands], rfl, by simp [Instr.code]⟩

theorem jmp (a : Operand) : Statement (.jmp a) :=
  ⟨rfl, by simp [Instr.length, Instr.operands], rfl, by simp [Instr.code]⟩

theorem jt (a b : Operand) : Statement (.jt a b) :=
  ⟨rfl, by simp [Instr.length, Instr.operands], rfl, by simp [Instr.code]⟩

theorem jf (a b : Operand) : Statement (.jf a b) :=
  ⟨rfl, by simp [Instr.length, Instr.operands], rfl, by simp [Instr.code]⟩

theorem add (a b c : Operand) : Statement (.add a b c) :=
  ⟨rfl, by simp [Instr.length, Instr.operands], rfl, by simp [Instr.code]⟩

theorem mult (a b c : Operand) : Statement (.mult a b c) :=
  ⟨rfl, by simp [Instr.length, Instr.operands], rfl, by simp [Instr.code]⟩

theorem mod (a b c : Operand) : Statement (.mod a b c) :=
  ⟨rfl, by simp [Instr.length, Instr.operands], rfl, by simp [Instr.code]⟩

theorem and (a b c : Operand) : Statement (.and a b c) :=
  ⟨rfl, by simp [Instr.length, Instr.operands], rfl, by simp [Instr.code]⟩

theorem or (a b c : Operand) : Statement (.or a b c) :=
  ⟨rfl, by simp [Instr.length, Instr.operands], rfl, by simp [Instr.code]⟩

theorem not (a b : Operand) : Statement (.not a b) :=
  ⟨rfl, by simp [Instr.length, Instr.operands], rfl, by simp [Instr.code]⟩

theorem rmem (a b : Operand) : Statement (.rmem a b) :=
  ⟨rfl, by simp [Instr.length, Instr.operands], rfl, by simp [Instr.code]⟩

theorem wmem (a b : Operand) : Statement (.wmem a b) :=
  ⟨rfl, by simp [Instr.length, Instr.operands], rfl, by simp [Instr.code]⟩

theorem call (a : Operand) : Statement (.call a) :=
  ⟨rfl, by simp [Instr.length, Instr.operands], rfl, by simp [Instr.code]⟩

theorem ret : Statement .ret :=
  ⟨rfl, by simp [Instr.length, Instr.operands], rfl, by simp [Instr.code]⟩

theorem out (a : Operand) : Statement (.out a) :=
  ⟨rfl, by simp [Instr.length, Instr.operands], rfl, by simp [Instr.code]⟩

theorem inp (a : Operand) : Statement (.inp a) :=
  ⟨rfl, by simp [Instr.length, Instr.operands], rfl, by simp [Instr.code]⟩

theorem noop : Statement .noop :=
  ⟨rfl, by simp [Instr.length, Instr.operands], rfl, by simp [Instr.code]⟩

end Sys2Proof.Laws.CellsOfLength
end

