-- ==== Sys2Proof/Tests/Slice0.lean ====
section
/-! SUPPORT. The model's own tests. Expected results are the spec's: its encodings (R82, R84), its
test vectors (spec/95_test_vectors.md, cited as S, V and P) and its rules' examples. The second half
holds the witnesses: for each statement with hypotheses, a state and operands that meet them, at
the boundary of each clause. -/

namespace Sys2Proof.Tests

open Sys2Proof.Machine

/-! ### Helpers -/

/-- The reset machine with an image. -/
def machine (image : List Cell) : State := { State.reset with mem := Memory.ofImage image }

/-- The next state of an outcome, if it is one. -/
def nextOf : Host.Outcome State Fault Refusal → Option State
  | .next t => some t
  | .fault _ => none
  | .refused _ => none

/-- What a step leaves of a part of the state. -/
def after {α : Type} (s : State) (part : State → α) : Option α := (nextOf (step s)).map part

/-- The fault a step ended in. -/
def faultOf (t : State) : Status × FaultCause × Cell × Cell :=
  (t.status, t.faultCause, t.faultInfo, t.pc)

/-! ### WellFormed: the check refuses ill-formed terms -/

theorem test_wf_invalid_operand_first : (Instr.push (.invalid 5)).wf = false := by decide
theorem test_wf_invalid_operand_last :
    (Instr.add (.register 0) (.number 1) (.invalid 32775)).wf = false := by decide
theorem test_wf_accepts_32776 : (Instr.push (.invalid 32776)).wf = true := by decide

/-! ### Decode: every constructor from a word of the opcode table -/

theorem test_decode_halt : decode [0] = .instr .halt [] := by decide
theorem test_decode_set : decode [1, 32769, 65] = .instr (.set (.register 1) (.number 65)) [] := by
  decide
theorem test_decode_push : decode [2, 32768] = .instr (.push (.register 0)) [] := by decide
theorem test_decode_pop : decode [3, 100] = .instr (.pop (.number 100)) [] := by decide
theorem test_decode_eq :
    decode [4, 32768, 9, 8] = .instr (.eq (.register 0) (.number 9) (.number 8)) [] := by decide
theorem test_decode_gt :
    decode [5, 32768, 5, 3] = .instr (.gt (.register 0) (.number 5) (.number 3)) [] := by decide
theorem test_decode_jmp : decode [6, 40000] = .instr (.jmp (.invalid 40000)) [] := by decide
theorem test_decode_jt : decode [7, 1, 10] = .instr (.jt (.number 1) (.number 10)) [] := by decide
theorem test_decode_jf : decode [8, 32769, 0] = .instr (.jf (.register 1) (.number 0)) [] := by
  decide
theorem test_decode_add :
    decode [9, 32768, 32769, 4] = .instr (.add (.register 0) (.register 1) (.number 4)) [] := by
  decide
theorem test_decode_mult :
    decode [10, 32768, 6, 7] = .instr (.mult (.register 0) (.number 6) (.number 7)) [] := by decide
theorem test_decode_mod :
    decode [11, 32768, 17, 5] = .instr (.mod (.register 0) (.number 17) (.number 5)) [] := by
  decide
theorem test_decode_and :
    decode [12, 32768, 12, 10] = .instr (.and (.register 0) (.number 12) (.number 10)) [] := by
  decide
theorem test_decode_or :
    decode [13, 32768, 12, 10] = .instr (.or (.register 0) (.number 12) (.number 10)) [] := by
  decide
theorem test_decode_not : decode [14, 32768, 1] = .instr (.not (.register 0) (.number 1)) [] := by
  decide
theorem test_decode_rmem :
    decode [15, 32768, 4] = .instr (.rmem (.register 0) (.number 4)) [] := by decide
theorem test_decode_wmem :
    decode [16, 32768, 77] = .instr (.wmem (.register 0) (.number 77)) [] := by decide
theorem test_decode_call : decode [17, 7] = .instr (.call (.number 7)) [] := by decide
theorem test_decode_ret : decode [18, 5] = .instr .ret [5] := by decide
theorem test_decode_out : decode [19, 32768] = .instr (.out (.register 0)) [] := by decide
theorem test_decode_in : decode [20, 32775] = .instr (.inp (.register 7)) [] := by decide
theorem test_decode_noop : decode [21, 0] = .instr .noop [0] := by decide

/-- R81: 0x8015 and 0x0115 differ from noop in one high bit and are no opcodes. -/
theorem test_decode_high_bits :
    decode [0x8015] = .unknownOpcode 0x8015 ∧ decode [0x0115] = .unknownOpcode 0x0115 := by decide

/-- The encoder writes the cells of the listing in R91. -/
theorem test_encode_add :
    encode (.add (.register 0) (.register 1) (.number 4)) = [9, 32768, 32769, 4] := by decide

/-- The table word of `add r0 r1 4`: cell k in bits 16k + 15 .. 16k. -/
theorem test_table_word :
    decodeTableWord 64 0x0004800180000009 =
      some (.add (.register 0) (.register 1) (.number 4)) := by decide

theorem test_fetch_word_runs_first :
    after (State.reset.withFetchWord 16 21) (fun t => (t.status, t.pc)) = some (.running, 1) := by
  decide

/-! ### One step on a small image -/

/-- V2. -/
theorem test_halt : after (machine [0]) (fun t => (t.status, t.pc)) = some (.halted, 1) := by decide
theorem test_noop : after (machine [21, 0]) (fun t => (t.status, t.pc)) = some (.running, 1) := by
  decide
theorem test_unknown_opcode :
    after (machine [99, 0]) (fun t => (t.pc, t.trace)) =
      some (1, [.diag .unknownOpcode 0 99]) := by decide
/-- P7: the noop at the last cell, then the fetch beyond memory. -/
theorem test_fetch_beyond_memory :
    after { machine [21] with pc := 1 } faultOf = some (.faulted, .memoryBounds, 1, 1) := by decide
theorem test_operand_fetch_beyond_memory :
    after (machine [9, 32768, 1]) faultOf = some (.faulted, .memoryBounds, 3, 0) := by decide
/-- V3. -/
theorem test_set_raw : after (machine [1, 32768, 40000]) (fun t => (t.reg 0, t.pc)) =
    some (40000, 3) := by decide
theorem test_set_number_faults : after (machine [1, 5, 7]) faultOf =
    some (.faulted, .invalidOperand, 5, 0) := by decide
theorem test_push_register : after { machine [2, 32768] with
    regs := Vector.replicate 8 65535, stack := [3] } (fun t => (t.stack, t.pc)) =
    some ([3, 65535], 2) := by decide
theorem test_pop_to_memory : after { machine [3, 4, 0, 0, 0] with stack := [5, 77] }
    (fun t => (t.mem.read 4, t.stack, t.pc)) = some (some 77, [5], 2) := by decide
theorem test_pop_underflow_first : after (machine [3, 40000]) faultOf =
    some (.faulted, .stackUnderflow, 0, 0) := by decide
/-- V4. -/
theorem test_eq_raw : after ((machine [4, 32768, 32769, 0]).setReg 1 32768)
    (fun t => (t.reg 0, t.pc)) = some (0, 4) := by decide
theorem test_eq_itself : after ((machine [4, 32768, 32768, 32768]).setReg 0 123)
    (fun t => t.reg 0) = some 1 := by decide
theorem test_gt_raw : after ((machine [5, 32768, 32769, 32767]).setReg 1 32768)
    (fun t => (t.reg 0, t.pc)) = some (1, 4) := by decide
theorem test_gt_order : after (machine [5, 32768, 3, 5]) (fun t => t.reg 0) = some 0 := by decide
/-- V5. -/
theorem test_jmp_register : after ((machine [6, 32768]).setReg 0 9) (fun t => t.pc) = some 9 := by
  decide
theorem test_jmp_invalid : after ((machine [6, 32768]).setReg 0 32768) faultOf =
    some (.faulted, .invalidOperand, 32768, 0) := by decide
theorem test_jt_raw_nonzero : after ((machine [7, 32768, 10]).setReg 0 32768) (fun t => t.pc) =
    some 10 := by decide
theorem test_jt_untaken_bad_target : after (machine [7, 0, 40000, 0]) (fun t => (t.status, t.pc)) =
    some (.running, 3) := by decide
theorem test_jf_taken : after (machine [8, 0, 10]) (fun t => t.pc) = some 10 := by decide
theorem test_jf_raw_nonzero : after ((machine [8, 32768, 10]).setReg 0 32768) (fun t => t.pc) =
    some 3 := by decide
/-- V6. -/
theorem test_add_wraps : after (machine [9, 32768, 32758, 15]) (fun t => (t.reg 0, t.pc)) =
    some (5, 4) := by decide
theorem test_add_invalid_literal : after (machine [9, 32768, 40000, 1]) (fun t => t.reg 0) =
    some 7233 := by decide
theorem test_mult_wraps : after (machine [10, 32768, 182, 182]) (fun t => (t.reg 0, t.pc)) =
    some (356, 4) := by decide
theorem test_mod_reduces : after ((machine [11, 32768, 5, 32769]).setReg 1 32770)
    (fun t => (t.reg 0, t.pc)) = some (1, 4) := by decide
theorem test_mod_destination_first : after (machine [11, 40000, 1, 0]) faultOf =
    some (.faulted, .invalidDestination, 40000, 0) := by decide
theorem test_and_keeps_bit15 : after (machine [12, 32768, 40962, 49154])
    (fun t => (t.reg 0, t.pc)) = some (32770, 4) := by decide
theorem test_or_keeps_bit15 : after (machine [13, 32768, 40000, 1]) (fun t => (t.reg 0, t.pc)) =
    some (40001, 4) := by decide
theorem test_not_clears_bit15 : after (machine [14, 32768, 40000]) (fun t => (t.reg 0, t.pc)) =
    some (25535, 3) := by decide
/-- V7. -/
theorem test_rmem_copies : after (machine [15, 4, 0, 0, 9]) (fun t => (t.mem.read 4, t.pc)) =
    some (some 15, 3) := by decide
theorem test_rmem_raw : after ((machine [15, 32768, 4, 0, 32769]).setReg 1 7) (fun t => t.reg 0) =
    some 32769 := by decide
theorem test_wmem_through_register : after ((machine [16, 32768, 77, 0, 0]).setReg 0 4)
    (fun t => (t.mem.read 4, t.reg 0, t.pc)) = some (some 77, 4, 3) := by decide
theorem test_wmem_beyond : after (machine [16, 100, 1]) faultOf =
    some (.faulted, .memoryBounds, 100, 0) := by decide
/-- V8. -/
theorem test_call : after { (machine [17, 32768]).setReg 0 9 with stack := [1] }
    (fun t => (t.stack, t.pc)) = some ([1, 2], 9) := by decide
theorem test_ret : after { machine [18] with stack := [2, 0] } (fun t => (t.stack, t.pc)) =
    some ([2], 0) := by decide
theorem test_ret_empty_halts : after (machine [18])
    (fun t => (t.status, t.faultCause, t.pc)) = some (.halted, .noFault, 1) := by decide
theorem test_ret_bad_top : after { machine [18] with stack := [32768] }
    (fun t => (t.stack, faultOf t)) =
    some ([32768], (.faulted, .invalidOperand, 32768, 0)) := by decide
/-- V9. -/
theorem test_out : after (machine [19, 255]) (fun t => (t.trace, t.pc)) =
    some ([.outChar 255], 2) := by decide
theorem test_out_above_255 : after (machine [19, 256]) (fun t => (t.trace, faultOf t)) =
    some ([], (.faulted, .invalidCharacter, 256, 0)) := by decide
theorem test_in_from_queue : after { machine [20, 32768] with queue := [104, 105, 10] }
    (fun t => (t.reg 0, t.queue, t.pc, t.trace)) = some (104, [105, 10], 2, []) := by decide
theorem test_in_line : after { machine [20, 32768] with answers := [.line [104, 105]] }
    (fun t => (t.reg 0, t.queue, t.pc)) = some (104, [105, 10], 2) := by decide
theorem test_in_reject : after { machine [20, 32768] with answers := [.reject] }
    (fun t => (t.reg 0, t.queue, t.pc)) = some (0, [], 0) := by decide
theorem test_in_fail : after { machine [20, 32768] with answers := [.fail] } faultOf =
    some (.faulted, .hostFailure, 0, 0) := by decide
theorem test_in_bad_destination : after { machine [20, 40000] with answers := [.reject] }
    (fun t => (t.answers, faultOf t)) =
    some ([.reject], (.faulted, .invalidDestination, 40000, 0)) := by decide
/-- P6b: the load of the snapshot saved in the step before. -/
theorem test_in_load : after { machine [20, 32768] with
      answers := [.load (machine [20, 32768]).snapshot] }
    (fun t => (t.queue, t.pc, t.status)) =
    some ([108, 111, 111, 107, 10], 0, .running) := by decide
/-- A store of the unlisted value takes the entry out of the list again. -/
theorem test_store_keeps_canonical_form :
    ((machine [16, 1, 0]).mem.write 0 0).cells = [(1, 1)] := by decide

/-! ### Witnesses for the hypotheses of the statements -/

/-- A machine of 5 cells whose last address is 4. -/
def five : State := machine [21, 21, 21, 21, 21]

theorem witness_classify_bounds :
    (32767 : Cell).toNat ≤ 32767 ∧ 32768 ≤ (32768 : Cell).toNat ∧
    (32775 : Cell).toNat ≤ 32775 ∧ 32776 ≤ (32776 : Cell).toNat ∧
    classify 32767 = .number 32767 ∧ classify 32768 = .register 0 ∧
    classify 32775 = .register 7 ∧ classify 32776 = .invalid 32776 := by decide

theorem witness_round_trip :
    (Instr.add (.number 32767) (.register 7) (.invalid 65535)).wf = true ∧
    decode [9, 32767, 32775, 65535, 3] =
      .instr (.add (.number 32767) (.register 7) (.invalid 65535)) [3] := by decide

theorem witness_opcode_bounds :
    22 ≤ (22 : Cell).toNat ∧ (21 : Cell).toNat ≤ 21 ∧ 22 ≤ (65535 : Cell).toNat := by decide

/-- Cells of an instruction in memory, a Running machine: StepRunsDecodedInstruction and
StepRunsInstructionInMemory. -/
theorem witness_step_runs :
    (machine [9, 32768, 1, 2]).status = .running ∧
    decode (fetchCells (machine [9, 32768, 1, 2])) =
      .instr (.add (.register 0) (.number 1) (.number 2)) [] ∧
    (Instr.add (.register 0) (.number 1) (.number 2)).wf = true ∧
    ∀ k, k < 4 → (machine [9, 32768, 1, 2]).mem.read
        ((machine [9, 32768, 1, 2]).pc.toNat + k) =
      (encode (.add (.register 0) (.number 1) (.number 2)))[k]? := by decide

/-- An unknown opcode in the last cell of memory. -/
theorem witness_skip :
    (machine [22]).status = .running ∧ (machine [22]).mem.read (machine [22]).pc.toNat = some 22 ∧
    22 ≤ (22 : Cell).toNat := by decide

/-- The opcode beyond memory (k = 0) and the last operand beyond memory (k = 3). -/
theorem witness_fetch_beyond :
    ({ machine [21] with pc := 1 } : State).mem.read (1 + 0) = none ∧
    (machine [9, 32768, 1]).status = .running ∧
    (∀ j, j < 3 → (machine [9, 32768, 1]).mem.read ((machine [9, 32768, 1]).pc.toNat + j) =
      (encode (.add (.register 0) (.number 1) (.number 2)))[j]?) ∧
    (machine [9, 32768, 1]).mem.read ((machine [9, 32768, 1]).pc.toNat + 3) = none ∧
    3 < (Instr.add (.register 0) (.number 1) (.number 2)).length := by decide

theorem witness_stopped :
    ({ five with status := .halted } : State).over ∧
    (five.faultedWith .hostFailure 0).over := by decide

/-- A store to the cell the next step fetches (P4): StoreSeenByNextFetch. -/
theorem witness_store_fetched :
    ∃ t, exec (.wmem (.number 3) (.number 19)) (machine [16, 3, 19, 0, 72, 0]) = .next t ∧
      t.status = .running ∧ value (machine [16, 3, 19, 0, 72, 0]) (.number 3) = t.pc :=
  ⟨_, rfl, rfl, rfl⟩

/-- A Running state in the invariant with a next state: StepKeepsInvariant, ParametersNeverChange,
TraceOnlyGrows, HaltedOnlyByHaltOrEmptyRet, AnswersReachOnlyAskingIn. -/
theorem witness_invariant_step :
    five.Inv ∧ five.status = .running ∧ (∃ t, step five = .next t) ∧
    ¬ (five.mem.read five.pc.toNat = some 20 ∧ five.queue = []) := by
  refine ⟨⟨?_, ?_, ?_, ?_, ?_, ?_⟩, rfl, ⟨_, rfl⟩, ?_⟩ <;> decide

theorem witness_image_lengths :
    1 ≤ ([0] : List Cell).length ∧ (List.replicate 32768 (0 : Cell)).length ≤ 32768 ∧
    ([] : List Cell).length = 0 ∧ 32768 < (List.replicate 32769 (0 : Cell)).length := by
  refine ⟨by decide, ?_, rfl, ?_⟩ <;> rw [List.length_replicate]
  decide

/-- An `out` at OUT_MAX, an `out` above it and no `out` at all: OutCharOnlyFromOut,
OutEmitsCharacter. -/
theorem witness_out :
    decode (fetchCells (machine [19, 255])) = .instr (.out (.number 255)) [] ∧
    (value (machine [19, 255]) (.number 255)).toNat ≤ (machine [19, 255]).config.outMax ∧
    decode (fetchCells (machine [19, 256])) = .instr (.out (.number 256)) [] ∧
    (machine [19, 256]).config.outMax < (value (machine [19, 256]) (.number 256)).toNat ∧
    decode (fetchCells five) = .instr .noop [21, 21, 21] := by decide

theorem witness_faulting_step :
    (machine [3, 32768]).status = .running ∧
    ∃ t, step (machine [3, 32768]) = .next t ∧ t.status = .faulted := ⟨rfl, _, rfl, rfl⟩

theorem witness_value_cells :
    (32768 : Cell).toNat = 32768 + (0 : Fin 8).val ∧
    (32775 : Cell).toNat = 32768 + (7 : Fin 8).val ∧ (32767 : Cell).toNat < 32768 ∧
    32776 ≤ (32776 : Cell).toNat := by decide

theorem witness_not_bounds : (32767 : Cell).toNat ≤ 32767 ∧ 32768 ≤ (32768 : Cell).toNat ∧
    aluMod 5 32770 = .ok 1 := ⟨by decide, by decide, rfl⟩

/-- The destinations of PutsResult and RefusesDest: a register, the last address, the first address
beyond memory, the first invalid cell. -/
theorem witness_destinations :
    Accepts five (.register 7) ∧ Accepts five (.number 4) ∧
    five.mem.size ≤ (5 : BitVec 15).toNat ∧ classify 32776 = .invalid 32776 :=
  ⟨trivial, by show (4 : BitVec 15).toNat < five.mem.size; decide, by decide, by decide⟩

/-- The stack's clauses: unbounded, with room for exactly one more, full; and a stack with a top. -/
theorem witness_stack :
    Room five.config.stackDepth (five.stack.length + 1) ∧
    Room (some 1) (([] : List Cell).length + 1) ∧ 1 ≤ ([9] : List Cell).length ∧
    five.stack = [] ∧
    ({ five with stack := [5, 9] } : State).stack = [5] ++ [9] := by
  refine ⟨?_, ?_, by decide, rfl, rfl⟩ <;> simp [Room, five, machine, State.reset, Config.default]

/-- A machine whose stack may hold one entry. -/
def oneDeep : State := { five with config := { five.config with stackDepth := some 1 } }

/-- One state per side of a bounded stack: room for exactly one more, and exactly full; the clauses
of PushAppendsValue and CallPushesReturnAddress, with a target at its upper bound. -/
theorem witness_bounded_stack :
    Room oneDeep.config.stackDepth (oneDeep.stack.length + 1) ∧
    (value oneDeep (.number 32767)).toNat ≤ 32767 ∧
    ({ oneDeep with stack := [9] } : State).config.stackDepth = some 1 ∧
    1 ≤ ({ oneDeep with stack := [9] } : State).stack.length ∧
    (value { oneDeep with stack := [9] } (.number 32767)).toNat ≤ 32767 := by
  refine ⟨?_, by decide, rfl, by decide, by decide⟩
  simp [Room, oneDeep, five, machine, State.reset]

/-- The targets and addresses at the ends of their ranges, and both conditions of a branch: the
jumps, call, ret, rmem, wmem, mod and OneStackForBothUses. -/
theorem witness_values :
    (value five (.number 32767)).toNat ≤ 32767 ∧
    32768 ≤ (value (five.setReg 0 32768) (.register 0)).toNat ∧
    value five (.number 0) = 0 ∧ value (five.setReg 0 32768) (.register 0) ≠ 0 ∧
    five.mem.read (value five (.number 4)).toNat = some 21 ∧
    (value five (.number 4)).toNat < five.mem.size ∧
    five.mem.size ≤ (value five (.number 5)).toNat ∧
    (value five (.number 1)).toNat % 32768 ≠ 0 ∧ (value five (.number 0)).toNat % 32768 = 0 ∧
    (value (five.setReg 0 32768) (.register 0)).toNat % 32768 = 0 := by decide

/-- An `in` with a character waiting: InDeliversFront. -/
theorem witness_in_front :
    ({ five with queue := [104] } : State).queue = 104 :: [] ∧
    Accepts { five with queue := [104] } (.register 0) := ⟨rfl, trivial⟩

/-- An `in` on an empty queue, with each answer and none: the statements about the answers. -/
theorem witness_in_answers :
    Accepts five (.register 0) ∧ five.queue = [] ∧ five.answers = [] ∧
    (∀ b ∈ ([127] : List Cell), b.toNat ≤ 127) ∧
    ([127] : List Cell) ≠ [115, 97, 118, 101] ∧ ([127] : List Cell) ≠ [108, 111, 97, 100] ∧
    ([127] ++ [10] : List Cell) = 127 :: [10] ∧ ([] ++ [10] : List Cell) = 10 :: [] ∧
    Room (some 2) (([127] : List Cell).length + 1) ∧
    legalLine [127] = true ∧ 1 < ([127] : List Cell).length + 1 ∧
    five.snapshot.mem.wf = true ∧ five.snapshot.mem.size = five.mem.size ∧
    five.snapshot.pc.toNat ≤ 32771 ∧ Room five.config.stackDepth five.snapshot.stack.length ∧
    Room (some 5) (five.snapshot.queue.length + 5) ∧ 4 < five.snapshot.queue.length + 5 ∧
    127 < (128 : Cell).toNat ∧ 32771 < (32772 : Cell).toNat ∧
    ¬ Room (some 0) ([9] : List Cell).length := by
  refine ⟨trivial, rfl, rfl, by simp, by decide, by decide, rfl, rfl, ?_, by decide, by decide,
    by decide, rfl, by decide, ?_, ?_, by decide, by decide, by decide, ?_⟩ <;>
    simp [Room, five, machine, State.reset, State.snapshot, Config.default]

/-- The machine of P6b, whose `in` is answered `Save`, then `Load` of that snapshot. -/
def saveLoad : State :=
  { machine [20, 32768] with answers := [.save, .load (machine [20, 32768]).snapshot] }

/-- The state of the round trip: SaveThenLoadIsLikeTypingLook. -/
theorem witness_round_trip_state :
    saveLoad.Inv ∧ saveLoad.status = .running ∧
    decode (fetchCells saveLoad) = .instr (.inp (.register 0)) [] ∧
    Accepts saveLoad (.register 0) ∧ saveLoad.queue = [] ∧
    Room saveLoad.config.queueDepth 5 ∧
    saveLoad.answers = .save :: .load saveLoad.snapshot :: [] := by
  refine ⟨⟨?_, ?_, ?_, ?_, ?_, ?_⟩, ?_, ?_, True.intro, ?_, ?_, ?_⟩
  any_goals decide
  · simp [Room, saveLoad, machine, State.reset, Config.default]

end Sys2Proof.Tests
end

namespace Sys2Proof.Machine

/-! ### The code of what is decoded

Each format answers an instruction built by the constructor it was given (R82), so the code of a
decoded instruction is its opcode cell (R81, R84). -/

theorem code_of_decode1 {mk : Operand → Instr} {op : Cell} {cells rest : List Cell} {i : Instr}
    (h : decode1 mk cells = .instr i rest) (hmk : ∀ a, (mk a).code = op) : i.code = op := by
  cases cells with
  | nil => cases h
  | cons a cells => cases h; exact hmk _

theorem code_of_decode2 {mk : Operand → Operand → Instr} {op : Cell}
    {cells rest : List Cell} {i : Instr} (h : decode2 mk cells = .instr i rest)
    (hmk : ∀ a b, (mk a b).code = op) : i.code = op := by
  match cells, h with
  | _ :: _ :: _, h => cases h; exact hmk _ _

theorem code_of_decode3 {mk : Operand → Operand → Operand → Instr} {op : Cell}
    {cells rest : List Cell} {i : Instr} (h : decode3 mk cells = .instr i rest)
    (hmk : ∀ a b c, (mk a b c).code = op) : i.code = op := by
  match cells, h with
  | _ :: _ :: _ :: _, h => cases h; exact hmk _ _ _

theorem code_of_decode {op : Cell} {cells rest : List Cell} {i : Instr}
    (h : decode (op :: cells) = .instr i rest) : i.code = op := by
  have code_eq {k : Nat} (hk : op.toNat = k) : BitVec.ofNat 16 k = op := by simp [← hk]
  simp only [decode] at h
  split at h
  next hk => cases h; exact code_eq hk
  next hk => exact code_of_decode2 h fun _ _ => code_eq hk
  next hk => exact code_of_decode1 h fun _ => code_eq hk
  next hk => exact code_of_decode1 h fun _ => code_eq hk
  next hk => exact code_of_decode3 h fun _ _ _ => code_eq hk
  next hk => exact code_of_decode3 h fun _ _ _ => code_eq hk
  next hk => exact code_of_decode1 h fun _ => code_eq hk
  next hk => exact code_of_decode2 h fun _ _ => code_eq hk
  next hk => exact code_of_decode2 h fun _ _ => code_eq hk
  next hk => exact code_of_decode3 h fun _ _ _ => code_eq hk
  next hk => exact code_of_decode3 h fun _ _ _ => code_eq hk
  next hk => exact code_of_decode3 h fun _ _ _ => code_eq hk
  next hk => exact code_of_decode3 h fun _ _ _ => code_eq hk
  next hk => exact code_of_decode3 h fun _ _ _ => code_eq hk
  next hk => exact code_of_decode2 h fun _ _ => code_eq hk
  next hk => exact code_of_decode2 h fun _ _ => code_eq hk
  next hk => exact code_of_decode2 h fun _ _ => code_eq hk
  next hk => exact code_of_decode1 h fun _ => code_eq hk
  next hk => cases h; exact code_eq hk
  next hk => exact code_of_decode1 h fun _ => code_eq hk
  next hk => exact code_of_decode1 h fun _ => code_eq hk
  next hk => cases h; exact code_eq hk
  next => cases h

/-- The instruction that is fetched has the cell at the pc as its code. -/
theorem read_pc_of_decode_fetchCells {s : State} {i : Instr} {rest : List Cell}
    (h : decode (fetchCells s) = .instr i rest) : s.mem.read s.pc.toNat = some i.code := by
  cases hr : s.mem.read s.pc.toNat with
  | none => simp [fetchCells, Memory.readFrom, hr, decode] at h
  | some op => rw [code_of_decode (fetchCells_cons hr ▸ h)]

/-! ### Replacing the answers to come

The answers to come are not looked at by an operation when replacing them before it is the same as
replacing them after it. That one equation also says that the operation takes none of them
(`answers_of_next_eq_nextWithAnswers`). -/

/-- The state with other answers to come (R235). -/
def State.withAnswers (others : List HostAnswer) (s : State) : State :=
  { s with answers := others }

/-- An outcome with other answers to come in its next state. -/
def nextWithAnswers (others : List HostAnswer) :
    Host.Outcome State Fault Refusal → Host.Outcome State Fault Refusal
  | .next t => .next (t.withAnswers others)
  | .fault r => .fault r
  | .refused r => .refused r

section
variable (others : List HostAnswer) (s : State)

@[simp] theorem State.withAnswers_config : (s.withAnswers others).config = s.config := rfl
@[simp] theorem State.withAnswers_mem : (s.withAnswers others).mem = s.mem := rfl
@[simp] theorem State.withAnswers_pc : (s.withAnswers others).pc = s.pc := rfl
@[simp] theorem State.withAnswers_answers : (s.withAnswers others).answers = others := rfl
@[simp] theorem State.withAnswers_queue : (s.withAnswers others).queue = s.queue := rfl

@[simp] theorem nextWithAnswers_next :
    nextWithAnswers others (.next s) = .next (s.withAnswers others) := rfl

@[simp] theorem value_withAnswers (a : Operand) : value (s.withAnswers others) a = value s a := by
  cases a <;> rfl

@[simp] theorem checkDest_withAnswers (a : Operand) :
    checkDest (s.withAnswers others) a = checkDest s a := by
  cases a <;> rfl

@[simp] theorem loadCell_withAnswers (addr : Cell) :
    loadCell addr (s.withAnswers others) = loadCell addr s := rfl

@[simp] theorem fetchCells_withAnswers : fetchCells (s.withAnswers others) = fetchCells s := rfl

/-! The operations that answer a state or a fault. -/

theorem memWrite_withAnswers (a : Nat) (v : Cell) :
    memWrite a v (s.withAnswers others) = (memWrite a v s).map (State.withAnswers others) := by
  rcases memWrite_cases a v s with ⟨ha, e⟩ | ⟨ha, e⟩ <;> rw [e]
  · exact if_pos ha
  · exact if_neg (Nat.not_lt.2 ha)

theorem writeDest_withAnswers (a : Operand) (v : Cell) :
    writeDest a v (s.withAnswers others) = (writeDest a v s).map (State.withAnswers others) := by
  cases a with
  | register i => rfl
  | number n => exact memWrite_withAnswers others s n.toNat v
  | invalid c => rfl

theorem jumpTo_withAnswers (v : Cell) :
    jumpTo v (s.withAnswers others) = (jumpTo v s).map (State.withAnswers others) := by
  unfold jumpTo
  cases asNumber v <;> rfl

theorem push_withAnswers (v : Cell) :
    push v (s.withAnswers others) = (push v s).map (State.withAnswers others) := by
  by_cases hr : fits s.config.stackDepth (s.stack.length + 1) <;>
    simp [push, State.withAnswers, Except.map, hr]

theorem pop_withAnswers :
    pop (s.withAnswers others) = (pop s).map (Prod.map id (State.withAnswers others)) := by
  rcases pop_cases s with ⟨hs, e⟩ | ⟨below, v, hs, e⟩ <;> rw [e]
  · simp [pop, State.withAnswers, hs]
  · exact pop_append hs

/-- A rule that does not look at the answers ends in the same way whatever they are. -/
theorem finish_withAnswers (e : Except Raised State) :
    finish (s.withAnswers others) (e.map (State.withAnswers others)) =
      nextWithAnswers others (finish s e) := by
  cases e <;> rfl

theorem storeResult_withAnswers (a : Operand) (result : Except Raised Cell) (len : Nat) :
    storeResult a result len (s.withAnswers others) =
      nextWithAnswers others (storeResult a result len s) := by
  simp only [storeResult, checkDest_withAnswers, writeDest_withAnswers]
  cases checkDest s a with
  | error r => rfl
  | ok _ =>
    cases result with
    | error r => rfl
    | ok v => simp only [bind, Except.bind]; cases writeDest a v s <;> rfl

/-! The instructions. -/

theorem execSet_withAnswers (a b : Operand) :
    execSet a b (s.withAnswers others) = nextWithAnswers others (execSet a b s) := by
  simp only [execSet, value_withAnswers]
  cases a <;> rfl

theorem execPush_withAnswers (a : Operand) :
    execPush a (s.withAnswers others) = nextWithAnswers others (execPush a s) := by
  simp only [execPush, value_withAnswers, push_withAnswers]
  cases push (value s a) s <;> rfl

theorem execPop_withAnswers (a : Operand) :
    execPop a (s.withAnswers others) = nextWithAnswers others (execPop a s) := by
  simp only [execPop, pop_withAnswers, checkDest_withAnswers]
  cases pop s with
  | none => rfl
  | some top =>
    simp only [Option.map_some, Prod.map, writeDest_withAnswers]
    cases checkDest s a with
    | error r => rfl
    | ok _ => simp only [bind, Except.bind, id]; cases writeDest a top.1 top.2 <;> rfl

theorem finish_jumpTo_withAnswers (v : Cell) :
    finish (s.withAnswers others) (jumpTo v (s.withAnswers others)) =
      nextWithAnswers others (finish s (jumpTo v s)) := by
  rw [jumpTo_withAnswers, finish_withAnswers]

/-- Both conditional jumps: taken, a redirect; untaken, an advance (R181, R182). -/
theorem branch_withAnswers (taken : Prop) [Decidable taken] (v : Cell) :
    finish (s.withAnswers others)
        (if taken then jumpTo v (s.withAnswers others)
          else .ok ((s.withAnswers others).advance 3)) =
      nextWithAnswers others (finish s (if taken then jumpTo v s else .ok (s.advance 3))) := by
  split
  · exact finish_jumpTo_withAnswers others s v
  · rfl

theorem execWmem_withAnswers (a b : Operand) :
    execWmem a b (s.withAnswers others) = nextWithAnswers others (execWmem a b s) := by
  simp only [execWmem, value_withAnswers, memWrite_withAnswers]
  cases asNumber (value s a) with
  | error r => rfl
  | ok addr => simp only [bind, Except.bind]; cases memWrite addr.toNat (value s b) s <;> rfl

theorem execCall_withAnswers (a : Operand) :
    execCall a (s.withAnswers others) = nextWithAnswers others (execCall a s) := by
  simp only [execCall, value_withAnswers, push_withAnswers, State.withAnswers_pc]
  cases asNumber (value s a) with
  | error r => rfl
  | ok t => simp only [bind, Except.bind]; cases push (s.pc + 2) s <;> rfl

theorem execRet_withAnswers :
    execRet (s.withAnswers others) = nextWithAnswers others (execRet s) := by
  rcases pop_cases s with ⟨-, e⟩ | ⟨below, v, -, e⟩ <;>
    simp only [execRet, pop_withAnswers, e, Option.map_none, Option.map_some]
  · rfl
  · rw [Prod.map, jumpTo_withAnswers, finish_withAnswers]; rfl

theorem execOut_withAnswers (a : Operand) :
    execOut a (s.withAnswers others) = nextWithAnswers others (execOut a s) := by
  simp only [execOut, value_withAnswers, State.withAnswers_config]
  cases toChar s.config.outMax (value s a) <;> rfl

/-- With a character waiting, `in` does not come to its request (R232, R234). -/
theorem execInp_withAnswers (a : Operand) (hq : s.queue ≠ []) :
    execInp a (s.withAnswers others) = nextWithAnswers others (execInp a s) := by
  obtain ⟨ch, later, hq⟩ := List.exists_cons_of_ne_nil hq
  simp only [execInp, checkDest_withAnswers, State.withAnswers_queue, hq]
  cases checkDest s a with
  | error r => rfl
  | ok _ =>
    have hd : dequeue (s.withAnswers others) =
        some (ch, State.withAnswers others { s with queue := later }) := dequeue_cons hq
    simp only [deliver, dequeue_cons hq, hd, writeDest_withAnswers]
    cases writeDest a ch { s with queue := later } <;> rfl

/-- No instruction but an `in` on an empty queue looks at the answers (R234). -/
theorem exec_withAnswers {i : Instr} (hask : ∀ a, i = .inp a → s.queue ≠ []) :
    exec i (s.withAnswers others) = nextWithAnswers others (exec i s) := by
  cases i with
  | halt => rfl
  | set a b => exact execSet_withAnswers others s a b
  | push a => exact execPush_withAnswers others s a
  | pop a => exact execPop_withAnswers others s a
  | eq a b c => simp [exec, execEq, storeResult_withAnswers]
  | gt a b c => simp [exec, execGt, storeResult_withAnswers]
  | jmp a => simp [exec, execJmp, finish_jumpTo_withAnswers]
  | jt a b => simp only [exec, execJt, value_withAnswers, branch_withAnswers]
  | jf a b => simp only [exec, execJf, value_withAnswers, branch_withAnswers]
  | add a b c => simp [exec, execAdd, storeResult_withAnswers]
  | mult a b c => simp [exec, execMult, storeResult_withAnswers]
  | mod a b c => simp [exec, execMod, storeResult_withAnswers]
  | and a b c => simp [exec, execAnd, storeResult_withAnswers]
  | or a b c => simp [exec, execOr, storeResult_withAnswers]
  | not a b => simp [exec, execNot, storeResult_withAnswers]
  | rmem a b => simp [exec, execRmem, storeResult_withAnswers]
  | wmem a b => exact execWmem_withAnswers others s a b
  | call a => exact execCall_withAnswers others s a
  | ret => exact execRet_withAnswers others s
  | out a => exact execOut_withAnswers others s a
  | inp a => exact execInp_withAnswers others s a (hask a rfl)
  | noop => rfl

/-- No step but that of an `in` on an empty queue looks at the answers (R9, R234). -/
theorem step_withAnswers (hask : ¬(s.mem.read s.pc.toNat = some 20 ∧ s.queue = [])) :
    step (s.withAnswers others) = nextWithAnswers others (step s) := by
  by_cases hs : s.status = .running
  · rw [step_running hs, step_running (s := s.withAnswers others) hs, fetchCells_withAnswers]
    cases hd : decode (fetchCells s) with
    | instr i rest =>
      refine exec_withAnswers others s fun a ha hq => hask ⟨?_, hq⟩
      rw [read_pc_of_decode_fetchCells hd, ha]; rfl
    | unknownOpcode op => rfl
    | missing k => rfl
  · rw [step_over hs, step_over (s := s.withAnswers others) hs, nextWithAnswers_next]

end

/-- What does not depend on the answers takes none: the answers of `s`, put in before, are found
after. -/
theorem answers_of_next_eq_nextWithAnswers {s t : State} {o : Host.Outcome State Fault Refusal}
    (ho : o = nextWithAnswers s.answers o) (ht : o = .next t) : t.answers = s.answers := by
  rw [ht, nextWithAnswers_next] at ho
  rw [Host.Outcome.next.inj ho, State.withAnswers_answers]

/-- Settles O23: where the `in` does not ask, the step commutes with replacing the answers to come;
replacing them by themselves shows that none is taken. -/
theorem answersReachOnlyAskingIn : Obligations.AnswersReachOnlyAskingIn := by
  intro s t others hask ht
  refine ⟨answers_of_next_eq_nextWithAnswers (step_withAnswers s.answers s hask) ht, ?_⟩
  calc step (s.withAnswers others)
      = nextWithAnswers others (step s) := step_withAnswers others s hask
    _ = .next (t.withAnswers others) := by rw [ht, nextWithAnswers_next]

end Sys2Proof.Machine

namespace Sys2Proof.Machine

/-! ### The state after reset -/

/-- An address below the size that no listed cell has reads as the unlisted cell (R52). -/
theorem Memory.read_eq_unlisted {m : Memory} {a : Nat} (ha : a < m.size)
    (h : ∀ p ∈ m.cells, p.1 ≠ a) : m.read a = some Memory.unlisted := by
  rw [Memory.read, if_pos ha, Memory.lookup_eq_unlisted h]

/-- Settles O13: reset lists no cell of memory, so every address that exists reads as the unlisted
cell; the other parts are the fields of `State.reset` themselves. -/
theorem resetLeavesSpecValues : Obligations.ResetLeavesSpecValues := by
  have hmem (a : Nat) (ha : a < 32768) : State.reset.mem.read a = some 0 :=
    Memory.read_eq_unlisted ha fun _ hp => by cases hp
  have hend : State.reset.mem.read 32768 = none := (Memory.read_eq_none_iff _ _).2 (le_refl 32768)
  refine ⟨fun i => ?_, rfl, rfl, rfl, rfl, rfl, rfl, hmem, hend⟩
  simp [State.reg, State.reset]

/-! ### The trace only grows

No edit of the state shortens the trace: an emission appends to it and every other edit leaves it,
a restore among them (R35). -/

/-- Writing a destination emits nothing (R115). -/
theorem trace_of_writeDest {a : Operand} {v : Cell} {s t : State} (h : writeDest a v s = .ok t) :
    t.trace = s.trace := by
  rcases writeDest_cases h with ⟨i, -, rfl⟩ | ⟨n, -, -, rfl⟩ <;> rfl

theorem State.trace_prefix_emit (s : State) (e : Event) : s.trace <+: (s.emit e).trace :=
  List.prefix_append s.trace [e]

theorem State.trace_prefix_request (s : State) : s.trace <+: s.request.trace := by
  unfold State.request
  split
  · exact List.prefix_rfl
  · exact s.trace_prefix_emit _

/-- The host's answer taken stands after the request (R235). -/
theorem State.trace_prefix_request_take (s : State) (r : HostAnswer) (later : List HostAnswer) :
    s.trace <+: (s.request.take r later).trace :=
  s.trace_prefix_request.trans (s.request.trace_prefix_emit (.hostAnswer r))

theorem Edited.trace_prefix {i : Instr} {s u : State} (h : Edited i s u) :
    s.trace <+: u.trace := by
  cases h with
  | same => exact List.prefix_rfl
  | stopped h => exact List.prefix_rfl
  | wroteReg r v => exact List.prefix_rfl
  | wroteMem n v h => exact List.prefix_rfl
  | pushed v h => exact List.prefix_rfl
  | popped below v h => exact List.prefix_rfl
  | poppedTo below v h a u hu => rw [trace_of_writeDest hu]
  | tookTo ch later h a u hu => rw [trace_of_writeDest hu]
  | wroteOut a h hv => exact s.trace_prefix_emit _

theorem Answered.trace_prefix {a : Operand} {r : HostAnswer} {s t : State}
    (h : Answered a s r t) : s.trace <+: t.trace := by
  cases h with
  | raised r f => exact List.prefix_rfl
  | delivered bytes ch later hb hq u hu => rw [State.advance_trace, trace_of_writeDest hu]
  | saved => exact s.trace_prefix_emit _
  | loaded p hp hq => exact List.prefix_rfl
  | rejected => exact List.prefix_rfl

theorem Done.trace_prefix {i : Instr} {s t : State} (h : Done i s t) : s.trace <+: t.trace := by
  cases h with
  | raised r => exact List.prefix_rfl
  | advanced u hu => exact hu.trace_prefix
  | jumped u v hu hs hv => exact hu.trace_prefix
  | held a hi hq ha => exact s.trace_prefix_request
  | answered a hi hq r later hr t ht =>
    exact (s.trace_prefix_request_take r later).trans ht.trace_prefix

/-- Settles O18: of the cases of a step, an instruction's edits and the skip's diagnostic append to
the trace, a fetch fault and a stopped machine leave it. -/
theorem traceOnlyGrows : Obligations.TraceOnlyGrows := by
  intro s t h
  rcases step_cases h with ⟨-, rfl⟩ | ⟨-, ⟨i, rest, -, he⟩ | ⟨op, -, rfl⟩ | ⟨k, -, rfl⟩⟩
  · exact List.prefix_rfl
  · exact (done_of_exec he).trace_prefix
  · exact s.trace_prefix_emit _
  · exact List.prefix_rfl

/-! ### The instructions of the stack, where they do not fault -/

theorem asNumber_of_le {v : Cell} (h : v.toNat ≤ 32767) : asNumber v = .ok v := if_pos h

theorem push_of_room {s : State} (h : Room s.config.stackDepth (s.stack.length + 1)) (v : Cell) :
    push v s = .ok { s with stack := s.stack ++ [v] } :=
  if_pos ((fits_iff_room _ _).2 h)

/-- `push` with room (R161). -/
theorem exec_push_of_room {a : Operand} {s : State}
    (h : Room s.config.stackDepth (s.stack.length + 1)) :
    exec (.push a) s = .next { s with stack := s.stack ++ [value s a], pc := s.pc + 2 } := by
  show execPush a s = _
  rw [execPush, push_of_room h]; rfl

/-- `pop` of a top into a register (R162). -/
theorem exec_pop_register_of_stack {s : State} {below : List Cell} {v : Cell}
    (h : s.stack = below ++ [v]) (i : Fin 8) :
    exec (.pop (.register i)) s =
      .next { s.setReg i v with stack := below, pc := s.pc + 2 } := by
  show execPop (.register i) s = _
  rw [execPop, pop_append h]; rfl

/-- `call` of a number with room (R220). -/
theorem exec_call_of_room {a : Operand} {s : State} (hv : (value s a).toNat ≤ 32767)
    (h : Room s.config.stackDepth (s.stack.length + 1)) :
    exec (.call a) s = .next { s with stack := s.stack ++ [s.pc + 2], pc := value s a } := by
  show execCall a s = _
  rw [execCall, asNumber_of_le hv, push_of_room h]; rfl

/-- `ret` to a number (R221). -/
theorem exec_ret_of_stack {s : State} {below : List Cell} {v : Cell}
    (h : s.stack = below ++ [v]) (hv : v.toNat ≤ 32767) :
    exec .ret s = .next { s with stack := below, pc := v } := by
  show execRet s = _
  rw [execRet, pop_append h]
  show finish s (jumpTo v _) = _
  rw [jumpTo, asNumber_of_le hv]; rfl

/-- Settles O42: `push` and `call` leave the stack as it was with their cell on top, which is what
`ret` and `pop` take from it (R25). -/
theorem oneStackForBothUses : Obligations.OneStackForBothUses := by
  intro a i s hv hroom
  constructor
  · exact ⟨_, _, exec_push_of_room hroom, exec_ret_of_stack rfl hv, rfl, rfl⟩
  · exact ⟨_, _, exec_call_of_room hv hroom, exec_pop_register_of_stack rfl i,
      State.setReg_reg_same _ i _, rfl, rfl⟩

end Sys2Proof.Machine

namespace Sys2Proof.Machine

/-! ### A store by `wmem` and the next fetch -/

/-- Everything `wmem` can do, with what decides it (R211): the address is resolved first, then the
cell must exist, and then that one cell is written and the pc advanced. -/
theorem exec_wmem_cases (a b : Operand) (s : State) :
    ((value s a).toNat ≤ 32767 ∧ (value s a).toNat < s.mem.size ∧
      exec (.wmem a b) s =
        .next { s with mem := s.mem.write (value s a).toNat (value s b), pc := s.pc + 3 }) ∨
    (32768 ≤ (value s a).toNat ∧
      exec (.wmem a b) s = .next (s.raise (.invalidOperand (value s a)))) ∨
    ((value s a).toNat ≤ 32767 ∧ s.mem.size ≤ (value s a).toNat ∧
      exec (.wmem a b) s = .next (s.raise (.memoryBounds (value s a).toNat))) := by
  simp only [exec, execWmem]
  rcases asNumber_cases (value s a) with ⟨hv, e⟩ | ⟨hv, e⟩ <;> rw [e]
  · rcases memWrite_cases (value s a).toNat (value s b) s with ⟨hn, e⟩ | ⟨hn, e⟩ <;>
      simp only [bind, Except.bind, e]
    · exact .inl ⟨hv, hn, rfl⟩
    · exact .inr (.inr ⟨hv, hn, rfl⟩)
  · exact .inr (.inl ⟨hv, rfl⟩)

/-- The cell a Running `wmem` has written reads back as the value stored (R59, R211). -/
theorem read_of_exec_wmem {a b : Operand} {s t : State} (h : exec (.wmem a b) s = .next t)
    (hrun : t.status = .running) : t.mem.read (value s a).toNat = some (value s b) := by
  rcases exec_wmem_cases a b s with ⟨-, hn, e⟩ | ⟨-, e⟩ | ⟨-, -, e⟩ <;> rw [e] at h <;>
    obtain rfl := Host.Outcome.next.inj h
  · simp [Memory.read_write _ _ _ _ hn]
  · cases hrun
  · cases hrun

/-- Settles O12: the first cell of a fetch is the memory cell at the pc, which is the cell that the
`wmem` has written (R62). -/
theorem storeSeenByNextFetch : Obligations.StoreSeenByNextFetch := by
  intro a b s t h hrun hpc
  rw [head?_fetchCells, ← hpc]
  exact read_of_exec_wmem h hrun

end Sys2Proof.Machine

namespace Sys2Proof.Machine

/-! ### Decoding what the encoder wrote

The code of an instruction leads the decoder to the format of its opcode (R84), and in each format
well-formed operands are read back from their raw cells (R82, R83). -/

theorem decode1_raw {mk : Operand → Instr} {a : Operand} {rest : List Cell}
    (h : [a].all Operand.wf = true) : decode1 mk (a.raw :: rest) = .instr (mk a) rest := by
  have ha : a.wf = true := by simpa using h
  rw [decode1, classify_raw ha]

theorem decode2_raw {mk : Operand → Operand → Instr} {a b : Operand} {rest : List Cell}
    (h : [a, b].all Operand.wf = true) :
    decode2 mk (a.raw :: b.raw :: rest) = .instr (mk a b) rest := by
  obtain ⟨ha, hb⟩ : a.wf = true ∧ b.wf = true := by simpa using h
  rw [decode2, classify_raw ha, classify_raw hb]

theorem decode3_raw {mk : Operand → Operand → Operand → Instr} {a b c : Operand}
    {rest : List Cell} (h : [a, b, c].all Operand.wf = true) :
    decode3 mk (a.raw :: b.raw :: c.raw :: rest) = .instr (mk a b c) rest := by
  obtain ⟨ha, hb, hc⟩ : a.wf = true ∧ b.wf = true ∧ c.wf = true := by simpa using h
  rw [decode3, classify_raw ha, classify_raw hb, classify_raw hc]

/-- Settles O3: the instructions by their formats, none to three operands. -/
theorem decodeEncodeRoundTrip : Obligations.DecodeEncodeRoundTrip := by
  intro i rest h
  cases i with
  | halt | ret | noop => rfl
  | push a | pop a | jmp a | call a | out a | inp a => exact decode1_raw h
  | set a b | jt a b | jf a b | not a b | rmem a b | wmem a b => exact decode2_raw h
  | eq a b c | gt a b c | add a b c | mult a b c | mod a b c | and a b c | or a b c =>
    exact decode3_raw h

/-! ### The operand cells of what is decoded

Each format takes as many cells as the instruction it answers has operands, and no bit of them is
lost in their classification (R81, R83). -/

theorem operands_of_decode1 {mk : Operand → Instr} {cells rest : List Cell} {i : Instr}
    (h : decode1 mk cells = .instr i rest) (hmk : ∀ a, (mk a).operands = [a]) :
    cells = i.operands.map Operand.raw ++ rest ∧ i.wf = true := by
  match cells, h with
  | _ :: _, h => cases h; simp [Instr.wf, hmk]

theorem operands_of_decode2 {mk : Operand → Operand → Instr} {cells rest : List Cell} {i : Instr}
    (h : decode2 mk cells = .instr i rest) (hmk : ∀ a b, (mk a b).operands = [a, b]) :
    cells = i.operands.map Operand.raw ++ rest ∧ i.wf = true := by
  match cells, h with
  | _ :: _ :: _, h => cases h; simp [Instr.wf, hmk]

theorem operands_of_decode3 {mk : Operand → Operand → Operand → Instr} {cells rest : List Cell}
    {i : Instr} (h : decode3 mk cells = .instr i rest)
    (hmk : ∀ a b c, (mk a b c).operands = [a, b, c]) :
    cells = i.operands.map Operand.raw ++ rest ∧ i.wf = true := by
  match cells, h with
  | _ :: _ :: _ :: _, h => cases h; simp [Instr.wf, hmk]

theorem operands_of_decode {i : Instr} {cells rest : List Cell}
    (h : decode (i.code :: cells) = .instr i rest) :
    cells = i.operands.map Operand.raw ++ rest ∧ i.wf = true := by
  cases i with
  | halt | ret | noop => cases h; exact ⟨rfl, rfl⟩
  | push a | pop a | jmp a | call a | out a | inp a =>
    exact operands_of_decode1 h fun _ => rfl
  | set a b | jt a b | jf a b | not a b | rmem a b | wmem a b =>
    exact operands_of_decode2 h fun _ _ => rfl
  | eq a b c | gt a b c | add a b c | mult a b c | mod a b c | and a b c | or a b c =>
    exact operands_of_decode3 h fun _ _ _ => rfl

/-- Settles O4: the opcode cell is the code of what is decoded, and the cells after it are its
operands' and the rest. -/
theorem encodeDecodeExact : Obligations.EncodeDecodeExact := by
  intro cells i rest h
  cases cells with
  | nil => cases h
  | cons op cells =>
    obtain rfl := code_of_decode h
    obtain ⟨hcells, hwf⟩ := operands_of_decode h
    exact ⟨congrArg (i.code :: ·) hcells, hwf⟩

/-! ### Unknown opcodes

A format answers an instruction or a missing cell, so the opcode cell alone makes a decode error
(R81, R87). -/

theorem decode1_ne_unknownOpcode (mk : Operand → Instr) (cells : List Cell) (c : Cell) :
    decode1 mk cells ≠ .unknownOpcode c := by
  unfold decode1; split <;> nofun

theorem decode2_ne_unknownOpcode (mk : Operand → Operand → Instr) (cells : List Cell) (c : Cell) :
    decode2 mk cells ≠ .unknownOpcode c := by
  unfold decode2; split <;> nofun

theorem decode3_ne_unknownOpcode (mk : Operand → Operand → Operand → Instr) (cells : List Cell)
    (c : Cell) : decode3 mk cells ≠ .unknownOpcode c := by
  unfold decode3; split <;> nofun

theorem decode_of_unknown {op : Cell} (h : 22 ≤ op.toNat) (cells : List Cell) :
    decode (op :: cells) = .unknownOpcode op := by
  simp only [decode]
  split
  on_goal 23 => rfl
  all_goals omega

theorem decode_ne_unknownOpcode {op : Cell} (h : op.toNat ≤ 21) (cells : List Cell) (c : Cell) :
    decode (op :: cells) ≠ .unknownOpcode c := by
  simp only [decode]
  split
  on_goal 23 => simp only [imp_false] at *; omega
  all_goals simp [decodeZ, decode1_ne_unknownOpcode, decode2_ne_unknownOpcode,
    decode3_ne_unknownOpcode]

/-- Settles O5: above 21 no arm of the decoder's table applies, up to 21 one of its formats does. -/
theorem unknownOpcodeExactlyAbove21 : Obligations.UnknownOpcodeExactlyAbove21 :=
  fun _ cells => ⟨fun h => decode_of_unknown h cells, fun h => decode_ne_unknownOpcode h cells⟩

/-- Settles O8: the fetch begins with the opcode cell, whatever memory holds after it, and that cell
alone decodes to the skip. -/
theorem stepSkipsUnknownOpcode : Obligations.StepSkipsUnknownOpcode := by
  intro s op hs hr hop
  rw [step_running hs, fetchCells_cons hr, decode_of_unknown hop]
  rfl

/-- Settles O2: the decoder is run on the words. -/
theorem decodeReadsSpecWords : Obligations.DecodeReadsSpecWords := by
  unfold Obligations.DecodeReadsSpecWords
  decide

end Sys2Proof.Machine

namespace Sys2Proof.Machine

/-! ### Fetching a whole instruction from memory -/

theorem length_le_four (i : Instr) : i.length ≤ 4 := by
  cases i <;> simp [Instr.length, Instr.operands]

/-- Every cell of an instruction in memory is fetched, for a fetch reads four cells, as many as the
longest instruction has (R80, R113). -/
theorem encode_prefix_fetchCells {s : State} {i : Instr}
    (h : ∀ k, k < i.length → s.mem.read (s.pc.toNat + k) = (encode i)[k]?) :
    encode i <+: fetchCells s := by
  refine List.prefix_iff_getElem?.2 fun k hk => ?_
  have hlen : k < i.length := encode_length i ▸ hk
  calc (fetchCells s)[k]?
      = s.mem.read (s.pc.toNat + k) := getElem?_fetchCells s (hlen.trans_le (length_le_four i))
    _ = (encode i)[k]? := h k hlen
    _ = some (encode i)[k] := List.getElem?_eq_getElem hk

/-- Settles O6: of what a Running step decodes, an instruction is executed and nothing more. -/
theorem stepRunsDecodedInstruction : Obligations.StepRunsDecodedInstruction := by
  intro s i rest hs hd
  rw [step_running hs, hd]
  rfl

/-- Settles O7: the fetch begins with the instruction's encoding, and the decoder reads it back
whatever cells follow. -/
theorem stepRunsInstructionInMemory : Obligations.StepRunsInstructionInMemory := by
  intro s i hs hwf hcells
  obtain ⟨rest, hfetch⟩ := encode_prefix_fetchCells hcells
  exact stepRunsDecodedInstruction s i rest hs (hfetch ▸ decodeEncodeRoundTrip i rest hwf)

/-! ### The arithmetic unit in natural numbers -/

/-- Clearing bit 15 is reduction modulo 32768. -/
theorem toNat_and_low15 (p : Cell) : (p &&& 0x7FFF#16).toNat = p.toNat % 32768 := by
  rw [BitVec.toNat_and]
  exact Nat.and_two_pow_sub_one_eq_mod p.toNat 15

/-- A value reduced modulo 32768 fits the cell it is narrowed to. -/
theorem toNat_ofNat_mod (n : Nat) : (BitVec.ofNat 16 (n % 32768)).toNat = n % 32768 := by
  rw [BitVec.toNat_ofNat]
  omega

theorem aluAdd_toNat (p q : Cell) : (aluAdd p q).toNat = (p.toNat + q.toNat) % 32768 :=
  toNat_ofNat_mod _

theorem aluMul_toNat (p q : Cell) : (aluMul p q).toNat = (p.toNat * q.toNat) % 32768 :=
  toNat_ofNat_mod _

theorem aluNot_toNat (p : Cell) : (aluNot p).toNat = 32767 - p.toNat % 32768 := by
  rw [aluNot, toNat_and_low15, BitVec.toNat_not]
  omega

theorem aluNot_aluNot_toNat (p : Cell) : (aluNot (aluNot p)).toNat = p.toNat % 32768 := by
  rw [aluNot_toNat, aluNot_toNat]
  omega

/-- On numbers `not` is its own inverse (R121, R124). -/
theorem aluNot_aluNot {p : Cell} (h : p.toNat ≤ 32767) : aluNot (aluNot p) = p := by
  apply BitVec.eq_of_toNat_eq
  rw [aluNot_aluNot_toNat]
  omega

/-- The carry that a 16-bit adder loses is 65536, a multiple of 32768 (R116). -/
theorem aluAdd_eq_add_and (p q : Cell) : aluAdd p q = (p + q) &&& 0x7FFF#16 := by
  apply BitVec.eq_of_toNat_eq
  rw [aluAdd_toNat, toNat_and_low15, BitVec.toNat_add]
  omega

/-- The bits of a product above its low 16 are multiples of 32768 too (R117). -/
theorem aluMul_eq_mul_and (p q : Cell) : aluMul p q = (p * q) &&& 0x7FFF#16 := by
  apply BitVec.eq_of_toNat_eq
  rw [aluMul_toNat, toNat_and_low15, BitVec.toNat_mul]
  omega

/-- Settles O25: each form has the formula's value as a natural number. -/
theorem arithmeticUnitFormulas : Obligations.ArithmeticUnitFormulas := by
  intro p q
  refine ⟨aluAdd_toNat p q, aluAdd_eq_add_and p q, aluMul_toNat p q, aluMul_eq_mul_and p q,
    ?_, rfl, aluNot_aluNot, fun h => ?_⟩
  · rw [aluNot_toNat]; omega
  · rw [aluNot_aluNot_toNat]; omega

theorem aluAdd_comm (p q : Cell) : aluAdd p q = aluAdd q p := by
  rw [aluAdd, aluAdd, Nat.add_comm]

theorem aluMul_comm (p q : Cell) : aluMul p q = aluMul q p := by
  rw [aluMul, aluMul, Nat.mul_comm]

/-- `not` with 1 added is the negation modulo 32768 (R124). -/
theorem aluAdd_aluNot_add_one (p : Cell) : aluAdd p (aluAdd (aluNot p) 1) = 0 := by
  apply BitVec.eq_of_toNat_eq
  rw [aluAdd_toNat, aluAdd_toNat, aluNot_toNat]
  show (p.toNat + (32767 - p.toNat % 32768 + 1) % 32768) % 32768 = 0
  omega

theorem aluMod_toNat_le {p q r : Cell} (h : aluMod p q = .ok r) : r.toNat ≤ 32767 := by
  unfold aluMod at h
  split at h
  · cases h
  · next hq =>
    obtain rfl := Except.ok.inj h
    have hlt : p.toNat % 32768 % (q.toNat % 32768) < q.toNat % 32768 :=
      Nat.mod_lt _ (Nat.pos_of_ne_zero hq)
    rw [BitVec.toNat_ofNat]
    omega

theorem cmpEq_toNat_le (p q : Cell) : (cmpEq p q).toNat ≤ 1 := by
  unfold cmpEq; split <;> decide

theorem cmpGt_toNat_le (p q : Cell) : (cmpGt p q).toNat ≤ 1 := by
  unfold cmpGt; split <;> decide

/-- Settles O26: the sums, products and complements by their values as natural numbers, `mod` and
the comparisons by their cases. -/
theorem arithmeticLaws : Obligations.ArithmeticLaws := by
  intro p q
  refine ⟨aluAdd_comm p q, aluMul_comm p q,
    fun h => ⟨aluNot_aluNot h, aluAdd_aluNot_add_one p⟩, aluAdd_toNat p 32767,
    ?_, ?_, ?_, cmpEq_toNat_le p q, cmpGt_toNat_le p q, fun _ => aluMod_toNat_le⟩
  · rw [aluAdd_toNat]; omega
  · rw [aluMul_toNat]; omega
  · rw [aluNot_toNat]; omega

/-! ### The instructions that store a result

Each computes a value and is `storeResult` of it, so what that does with an accepted destination
and with any other is said once for all of them (R115, R126). -/

section
variable {i : Instr} {s : State} {a : Operand} {len : Nat}

theorem refusesDest_of_storeResult {result : Except Raised Cell}
    (h : exec i s = storeResult a result len s) : RefusesDest i s a := by
  obtain ⟨hnumber, hinvalid⟩ := storeResult_refuses s result len
  cases a with
  | register j => trivial
  | number n =>
    intro hn
    rw [h, hnumber n hn, State.raise_eq_faultedWith, Raised.info, BitVec.ofNat_toNat]
    rfl
  | invalid c => exact h.trans (hinvalid c)

theorem putsResult_of_storeResult {v : Cell} (h : exec i s = storeResult a (.ok v) len s) :
    PutsResult i s a v len :=
  ⟨fun ha => h ▸ storeResult_ok ha v len, refusesDest_of_storeResult h⟩

end

/-- Settles O32: `eq` and `gt` store what the comparison of the two raw values answers. -/
theorem compareStoresOneOrZero : Obligations.CompareStoresOneOrZero :=
  fun _ _ _ _ => ⟨putsResult_of_storeResult rfl, putsResult_of_storeResult rfl⟩

/-- Settles O33: `add` and `mult` store what the arithmetic unit answers. -/
theorem addMultStoreReducedResult : Obligations.AddMultStoreReducedResult :=
  fun _ _ _ _ => ⟨putsResult_of_storeResult rfl, putsResult_of_storeResult rfl⟩

theorem aluNot_eq_ofNat (p : Cell) : aluNot p = BitVec.ofNat 16 (32767 - p.toNat % 32768) := by
  rw [← aluNot_toNat, BitVec.ofNat_toNat, BitVec.setWidth_eq]

/-- Settles O35: `and` and `or` store the pattern itself; the complement that `not` stores is the
difference from 32767. -/
theorem bitwiseStoresPattern : Obligations.BitwiseStoresPattern := by
  intro a b c s
  refine ⟨putsResult_of_storeResult rfl, putsResult_of_storeResult rfl, ?_⟩
  rw [← aluNot_eq_ofNat]
  exact putsResult_of_storeResult rfl

/-! ### Classification and value operands -/

theorem classify_eq_register {c : Cell} {i : Fin 8} (h : c.toNat = 32768 + i.val) :
    classify c = .register i := by
  have hc : c = (Operand.register i).raw := by
    rw [Operand.raw, ← h, BitVec.ofNat_toNat, BitVec.setWidth_eq]
  rw [hc]
  exact classify_raw rfl

/-- Settles O1: the three ranges by the classification of each. -/
theorem classifyPartitionsCells : Obligations.ClassifyPartitionsCells := by
  intro c
  refine ⟨fun h => ⟨_, classify_number h, ?_⟩, fun h1 h2 => ?_, classify_invalid⟩
  · rw [BitVec.toNat_setWidth]; omega
  · exact ⟨⟨c.toNat - 32768, by omega⟩, classify_eq_register (Nat.add_sub_of_le h1).symm, rfl⟩

/-- The value of an operand that is no register is its raw cell (R114). -/
theorem value_eq_raw {a : Operand} (h : ∀ i, a ≠ .register i) (s : State) : value s a = a.raw := by
  cases a with
  | register i => exact absurd rfl (h i)
  | number n => rfl
  | invalid c => rfl

/-- Settles O24: a selector cell is classified as its register; any other cell is a number or
invalid, whose value is the raw cell. -/
theorem valueOperandResolution : Obligations.ValueOperandResolution := by
  intro s c
  refine ⟨fun i h => by rw [classify_eq_register h, value], fun h => ?_⟩
  rw [value_eq_raw (fun i hi => ?_) s, raw_classify]
  rcases classify_cases c with ⟨-, e⟩ | ⟨h1, h2, -⟩ | ⟨-, e⟩
  · cases e.symm.trans hi
  · omega
  · cases e.symm.trans hi

end Sys2Proof.Machine

namespace Sys2Proof.Machine

/-! ### halt and noop -/

/-- `noop` takes the general advance past its one cell (R127, R151). -/
theorem exec_noop (s : State) : exec .noop s = .next (s.advance 1) := rfl

/-- The pc is the only field that the advance past one cell updates. -/
theorem State.advance_one (s : State) : s.advance 1 = { s with pc := s.pc + 1 } := rfl

/-- Settles O28: `noop` is the advance past one cell, which updates the pc alone. -/
theorem noopOnlyMovesPc : Obligations.NoopOnlyMovesPc := by
  intro s
  rw [exec_noop, State.advance_one]

end Sys2Proof.Machine

namespace Sys2Proof.Machine

/-! ### The answers of `in`, with their whole next state -/

section
variable {a : Operand} {s : State} {later : List HostAnswer}

/-- On `Save` the snapshot handed over is that of the state asked in (R237). -/
theorem exec_inp_save (ha : Accepts s a) (hq : s.queue = []) (hr : s.answers = .save :: later) :
    exec (.inp a) s = .next { s with
      answers := later, trace := answeredTrace s .save ++ [.handOver s.snapshot] } :=
  execInp_answered ha hq hr

/-- On `Reject` nothing follows the taking of the answer (R239). -/
theorem exec_inp_reject (ha : Accepts s a) (hq : s.queue = [])
    (hr : s.answers = .reject :: later) :
    exec (.inp a) s = .next { s with answers := later, trace := answeredTrace s .reject } :=
  execInp_answered ha hq hr

theorem enqueue_of_room {cells : List Cell}
    (h : Room s.config.queueDepth (s.queue.length + cells.length)) :
    enqueue cells s = .ok { s with queue := s.queue ++ cells } :=
  if_pos ((fits_iff_room _ _).2 h)

/-- On `Load` the line `look` waits behind the snapshot's queue (R238). -/
theorem exec_inp_load {p : Snapshot} (ha : Accepts s a) (hq : s.queue = [])
    (hr : s.answers = .load p :: later) (hp : p.legal s = true)
    (hroom : Room s.config.queueDepth (p.queue.length + 5)) :
    exec (.inp a) s = .next { s with
      mem := p.mem, stack := p.stack, regs := p.regs, pc := p.pc, queue := p.queue ++ lookLine
      answers := later, trace := answeredTrace s (.load p) } :=
  calc exec (.inp a) s
      = answer a (.load p) { s with answers := later, trace := answeredTrace s (.load p) } :=
        execInp_answered ha hq hr
    _ = finish _ (enqueue lookLine _) := if_pos hp
    _ = _ := congrArg (finish _) (enqueue_of_room hroom)

/-- On a legal line with room, the line and its newline are queued and delivered from (R236). -/
theorem exec_inp_line {bytes : List Cell} (ha : Accepts s a) (hq : s.queue = [])
    (hr : s.answers = .line bytes :: later) (hl : legalLine bytes = true)
    (hroom : Room s.config.queueDepth (bytes.length + 1)) :
    exec (.inp a) s =
      finish { s with answers := later, trace := answeredTrace s (.line bytes) }
        (deliver a { s with
          queue := bytes ++ [10], answers := later, trace := answeredTrace s (.line bytes) }) := by
  rw [execInp_answered ha hq hr, answer, if_pos hl,
    enqueue_of_room (by simpa [hq] using hroom), hq]
  rfl

/-- With a character waiting, `in` delivers (R232). -/
theorem exec_inp_of_queue {ch : Cell} {waiting : List Cell} (ha : Accepts s a)
    (hq : s.queue = ch :: waiting) : exec (.inp a) s = finish s (deliver a s) := by
  show execInp a s = _
  rw [execInp, checkDest_of_accepts ha]
  simp only [hq]

end

/-- Settles O47: the snapshot's parts are the state's, and the state's queue is empty. -/
theorem inSaveHandsOverSnapshot : Obligations.InSaveHandsOverSnapshot := by
  intro a s later ha hq hr
  rw [exec_inp_save ha hq hr, State.snapshot, hq]

/-- Settles O48: `Reject` is the answer that does nothing. -/
theorem inRejectChangesNothing : Obligations.InRejectChangesNothing :=
  fun _ _ _ => exec_inp_reject

/-! ### A delivery under another trace

A delivery does not look at the trace: replacing the trace before it is the same as replacing it
after it. -/

/-- The state with another trace (R9). -/
def State.withTrace (trace : List Event) (s : State) : State := { s with trace := trace }

theorem writeDest_withTrace (trace : List Event) (s : State) (a : Operand) (v : Cell) :
    writeDest a v (s.withTrace trace) = (writeDest a v s).map (State.withTrace trace) := by
  cases a with
  | register i => rfl
  | number n =>
    show memWrite n.toNat v _ = (memWrite n.toNat v s).map _
    rcases memWrite_cases n.toNat v s with ⟨hn, e⟩ | ⟨hn, e⟩ <;> rw [e]
    · exact if_pos hn
    · exact if_neg (Nat.not_lt.2 hn)
  | invalid c => rfl

/-- A waiting character goes into an accepted destination with the same effect under every
trace. -/
theorem deliver_withTrace {a : Operand} {s : State} {ch : Cell} {waiting : List Cell}
    (ha : Accepts s a) (hq : s.queue = ch :: waiting) :
    ∃ t : State, ∀ trace, deliver a (s.withTrace trace) = .ok (t.withTrace trace) := by
  obtain ⟨u, hu, -⟩ := writeDest_of_accepts (s := { s with queue := waiting }) ha ch
  refine ⟨u.advance 2, fun trace => ?_⟩
  have hd : dequeue (s.withTrace trace) =
      some (ch, State.withTrace trace { s with queue := waiting }) := dequeue_cons hq
  simp only [deliver, hd, writeDest_withTrace, hu]
  rfl

/-! ### The character output of an answered request -/

theorem outChars_append (xs ys : List Event) :
    outChars (xs ++ ys) = outChars xs ++ outChars ys := List.filterMap_append

/-- Neither a request nor its answer is a character (R231, R235). -/
theorem outChars_answeredTrace (s : State) (r : HostAnswer) :
    outChars (answeredTrace s r) = outChars s.trace := by
  have hrequest : outChars [.lineRequest] = [] := rfl
  have hanswer : outChars [.hostAnswer r] = [] := rfl
  unfold answeredTrace
  split <;> simp only [outChars_append, hrequest, hanswer, List.append_nil]

/-! ### The round trip of a save and a load -/

/-- A state of the invariant may load what it saves (R238). -/
theorem State.Inv.legal_snapshot {s : State} (h : s.Inv) : s.snapshot.legal s = true :=
  (Snapshot.legal_iff _ _).2 ⟨h.mem, rfl, h.pc, (fits_iff_room _ _).1 h.stack⟩

/-- The state that both sides of R245 deliver in, but for the trace: `s` with the line `look` and
its newline waiting. -/
def State.withLookWaiting (later : List HostAnswer) (s : State) : State :=
  { s with queue := lookLine, answers := later }

/-- `Load` of the state's own snapshot, whatever was emitted since, leaves the line `look` waiting
and puts no character out. -/
theorem exec_inp_load_snapshot {a : Operand} {s : State} (hinv : s.Inv) (ha : Accepts s a)
    (hq : s.queue = []) (hroom : Room s.config.queueDepth 5) (later : List HostAnswer)
    (emitted : List Event) :
    ∃ trace, outChars trace = outChars emitted ∧
      exec (.inp a) { s with answers := .load s.snapshot :: later, trace := emitted } =
        .next ((s.withLookWaiting later).withTrace trace) := by
  have hroom' : Room s.config.queueDepth (s.snapshot.queue.length + 5) := by simpa [hq] using hroom
  refine ⟨_, outChars_answeredTrace { s with trace := emitted } (.load s.snapshot), ?_⟩
  rw [exec_inp_load (s := { s with answers := .load s.snapshot :: later, trace := emitted }) ha hq
    rfl hinv.legal_snapshot hroom', State.snapshot_queue, hq]
  rfl

/-- The typed line `look` is delivered from in the same state but for the trace (R236). -/
theorem exec_inp_look {a : Operand} {s : State} (ha : Accepts s a) (hq : s.queue = [])
    (hroom : Room s.config.queueDepth 5) (later : List HostAnswer) :
    exec (.inp a) { s with answers := .line [108, 111, 111, 107] :: later } =
      finish { s with answers := later, trace := answeredTrace s (.line [108, 111, 111, 107]) }
        (deliver a ((s.withLookWaiting later).withTrace
          (answeredTrace s (.line [108, 111, 111, 107])))) :=
  exec_inp_line (s := { s with answers := .line [108, 111, 111, 107] :: later }) ha hq rfl
    (by decide) hroom

/-- Settles O54: after `Save` and `Load` the `in` delivers in the state that typing `look` delivers
in, but for the trace, which a delivery does not look at. -/
theorem saveThenLoadIsLikeTypingLook : Obligations.SaveThenLoadIsLikeTypingLook := by
  intro a s rest later hinv hrun hd ha hq hroom hr
  have step_eq_exec (queue : List Cell) (answers : List HostAnswer) (trace : List Event) :
      step { s with queue := queue, answers := answers, trace := trace } =
        exec (.inp a) { s with queue := queue, answers := answers, trace := trace } :=
    stepRunsDecodedInstruction _ _ rest hrun hd
  obtain ⟨trace, hchars, hload⟩ := exec_inp_load_snapshot hinv ha hq hroom later
    (answeredTrace s .save ++ [.handOver s.snapshot])
  obtain ⟨x, hdeliver⟩ := deliver_withTrace (s := s.withLookWaiting later) ha rfl
  refine ⟨_, _, x.withTrace trace, x.withTrace (answeredTrace s (.line [108, 111, 111, 107])),
    (step_eq_exec _ _ _).trans (exec_inp_save ha hq hr), (step_eq_exec _ _ _).trans hload,
    ?_, ?_, rfl, ?_⟩
  · calc step ((s.withLookWaiting later).withTrace trace)
        = exec (.inp a) ((s.withLookWaiting later).withTrace trace) := step_eq_exec _ _ _
      _ = finish _ (deliver a ((s.withLookWaiting later).withTrace trace)) :=
        exec_inp_of_queue ha rfl
      _ = .next (x.withTrace trace) := by rw [hdeliver, finish_ok]
  · calc step { s with answers := .line [108, 111, 111, 107] :: later }
        = exec (.inp a) { s with answers := .line [108, 111, 111, 107] :: later } :=
        step_eq_exec _ _ _
      _ = finish _ (deliver a ((s.withLookWaiting later).withTrace (answeredTrace s _))) :=
        exec_inp_look ha hq hroom later
      _ = .next (x.withTrace (answeredTrace s _)) := by rw [hdeliver, finish_ok]
  · calc outChars trace
        = outChars (answeredTrace s .save ++ [.handOver s.snapshot]) := hchars
      _ = outChars (answeredTrace s .save) := (outChars_append _ _).trans (List.append_nil _)
      _ = outChars s.trace := outChars_answeredTrace s .save
      _ = _ := (outChars_answeredTrace s _).symm

end Sys2Proof.Machine

namespace Sys2Proof.Machine

/-! ### Where a machine halts -/

/-- The instruction `i` halts the machine in `s`: `halt` in every state, `ret` where the stack holds
nothing to return to (R276). -/
def HaltsIn (i : Instr) (s : State) : Prop := i = .halt ∨ (i = .ret ∧ s.stack = [])

/-- Writing a destination leaves the status (R115). -/
theorem status_of_writeDest {a : Operand} {v : Cell} {s t : State} (h : writeDest a v s = .ok t) :
    t.status = s.status := by
  rcases writeDest_cases h with ⟨i, -, rfl⟩ | ⟨n, -, -, rfl⟩ <;> rfl

theorem Edited.status_eq_or_haltsIn {i : Instr} {s u : State} (h : Edited i s u) :
    u.status = s.status ∨ HaltsIn i s := by
  cases h with
  | same => exact .inl rfl
  | stopped h => exact .inr h
  | wroteReg r v => exact .inl rfl
  | wroteMem n v h => exact .inl rfl
  | pushed v h => exact .inl rfl
  | popped below v h => exact .inl rfl
  | poppedTo below v h a u hu => exact .inl (by rw [status_of_writeDest hu])
  | tookTo ch later h a u hu => exact .inl (by rw [status_of_writeDest hu])
  | wroteOut a h hv => exact .inl rfl

/-- No answer of the host halts the machine; a load does not either, for the status is no part of a
snapshot (R238, R244). -/
theorem Answered.status_cases {a : Operand} {r : HostAnswer} {s t : State}
    (h : Answered a s r t) : t.status = s.status ∨ t.status = .faulted := by
  cases h with
  | raised r f => exact .inr rfl
  | delivered bytes ch later hb hq u hu =>
    exact .inl (by rw [State.advance_status, status_of_writeDest hu])
  | saved => exact .inl rfl
  | loaded p hp hq => exact .inl rfl
  | rejected => exact .inl rfl

theorem Done.status_cases {i : Instr} {s t : State} (h : Done i s t) :
    t.status = s.status ∨ t.status = .faulted ∨ HaltsIn i s := by
  cases h with
  | raised r => exact .inr (.inl rfl)
  | advanced u hu => exact hu.status_eq_or_haltsIn.imp_right .inr
  | jumped u v hu hs hv => exact .inl hs
  | held a hi hq ha => exact .inl s.request_status
  | answered a hi hq r later hr t ht =>
    exact ht.status_cases.imp (·.trans s.request_status) .inl

/-- An instruction that halts the machine stops it and takes the general advance past its one cell
(R127, R150, R221). -/
theorem exec_of_haltsIn {i : Instr} {s : State} (h : HaltsIn i s) :
    exec i s = .next (s.stop.advance 1) := by
  rcases h with rfl | ⟨rfl, hstack⟩
  · rfl
  · show execRet s = _
    simp [execRet, pop, hstack]

/-- A Running machine is halted by the instructions that `HaltsIn` names and by no other. -/
theorem exec_halted_iff {i : Instr} {s t : State} (hs : s.status = .running)
    (h : exec i s = .next t) : t.status = .halted ↔ HaltsIn i s := by
  constructor
  · intro ht
    rcases (done_of_exec h).status_cases with hsame | hfault | hhalts
    · rw [hsame, hs] at ht; cases ht
    · rw [hfault] at ht; cases ht
    · exact hhalts
  · intro hhalts
    obtain rfl := Host.Outcome.next.inj ((exec_of_haltsIn hhalts).symm.trans h)
    rfl

/-- The opcode cells 0 and 18 are instructions of format Z, whatever cells follow (R82, R84). -/
theorem decode_fetchCells_of_haltsIn {i : Instr} {s : State} (hi : HaltsIn i s)
    (hr : s.mem.read s.pc.toNat = some i.code) :
    decode (fetchCells s) = .instr i (s.mem.readFrom (s.pc.toNat + 1) 3) := by
  rw [fetchCells_cons hr]
  rcases hi with rfl | ⟨rfl, -⟩ <;> rfl

/-- A Running machine halts where the opcode cell at pc is the code of an instruction that halts it;
neither the skip of an unknown opcode nor a fetch fault halts. -/
theorem step_halted_iff {s t : State} (hs : s.status = .running) (h : step s = .next t) :
    t.status = .halted ↔ ∃ i, HaltsIn i s ∧ s.mem.read s.pc.toNat = some i.code := by
  constructor
  · intro ht
    rcases step_cases h with ⟨hover, -⟩ | ⟨-, ⟨i, rest, hd, he⟩ | ⟨op, -, rfl⟩ | ⟨k, -, rfl⟩⟩
    · exact absurd hs hover
    · exact ⟨i, (exec_halted_iff hs he).1 ht, read_pc_of_decode_fetchCells hd⟩
    · cases hs.symm.trans ht
    · cases ht
  · rintro ⟨i, hi, hr⟩
    have he : exec i s = .next t :=
      (stepRunsDecodedInstruction s i _ hs (decode_fetchCells_of_haltsIn hi hr)).symm.trans h
    exact (exec_halted_iff hs he).2 hi

/-- Settles O20: the instructions that halt a machine are `halt`, of code 0, and `ret` on an empty
stack, of code 18. -/
theorem haltedOnlyByHaltOrEmptyRet : Obligations.HaltedOnlyByHaltOrEmptyRet := by
  intro s t hs h
  rw [step_halted_iff hs h]
  constructor
  · rintro ⟨i, rfl | ⟨rfl, hstack⟩, hr⟩
    · exact .inl hr
    · exact .inr ⟨hr, hstack⟩
  · rintro (hr | ⟨hr, hstack⟩)
    · exact ⟨.halt, .inl rfl, hr⟩
    · exact ⟨.ret, .inr ⟨rfl, hstack⟩, hr⟩

end Sys2Proof.Machine

namespace Sys2Proof.Machine

/-! ### Every step answers a next state, but for illegal host answers

A rule that ends in `finish` answers a next state (`finish_next`), and so do halt, noop and ret. That
leaves `in`, whose only other outcomes are the two refusals of `answer`. -/

/-- The answer to come in `s` is one that no legal host gives, and the outcome `o` refuses it by its
name (R236, R238; log entries 8 and 9). -/
def RefusesIllegalAnswer (s : State) (o : Host.Outcome State Fault Refusal) : Prop :=
  (∃ bytes later, s.answers = .line bytes :: later ∧ legalLine bytes = false ∧
    o = .refused .illegalLine) ∨
  (∃ p later, s.answers = .load p :: later ∧ p.legal s = false ∧ o = .refused .illegalSnapshot)

/-- Every instruction but `in` answers a next state. -/
theorem exec_next_of_ne_inp {i : Instr} (s : State) (hi : ∀ a, i ≠ .inp a) :
    ∃ t, exec i s = .next t := by
  cases i with
  | halt => exact ⟨_, rfl⟩
  | noop => exact ⟨_, rfl⟩
  | ret =>
    show ∃ t, execRet s = .next t
    rcases pop_cases s with ⟨-, hp⟩ | ⟨below, v, -, hp⟩ <;> simp only [execRet, hp]
    · exact ⟨_, rfl⟩
    · exact finish_next _ _
  | inp a => exact absurd rfl (hi a)
  | _ => exact finish_next s _

/-- Only a line and a snapshot can be refused, where they are not legal (R236, R238). -/
theorem answer_next_or_refused (a : Operand) (r : HostAnswer) (s : State) :
    (∃ t, answer a r s = .next t) ∨
    (∃ bytes, r = .line bytes ∧ legalLine bytes = false ∧
      answer a r s = .refused .illegalLine) ∨
    (∃ p, r = .load p ∧ p.legal s = false ∧ answer a r s = .refused .illegalSnapshot) := by
  cases r with
  | line bytes =>
    cases hl : legalLine bytes with
    | true => simpa only [answer, if_pos hl] using .inl (finish_next s _)
    | false => exact .inr (.inl ⟨bytes, rfl, hl, by simp [answer, hl]⟩)
  | save => exact .inl ⟨_, rfl⟩
  | load p =>
    cases hp : p.legal s with
    | true => simpa only [answer, if_pos hp] using .inl (finish_next s _)
    | false => exact .inr (.inr ⟨p, rfl, hp, by simp [answer, hp]⟩)
  | reject => exact .inl ⟨_, rfl⟩
  | fail => exact .inl ⟨_, rfl⟩

/-- An `in` that asks is held, or answered with the next answer to come (R235, R241); taking that
answer leaves all that the legality of a snapshot looks at. -/
theorem exec_inp_next_or_refuses_of_accepts {a : Operand} {s : State} (ha : Accepts s a)
    (hq : s.queue = []) :
    (∃ t, exec (.inp a) s = .next t) ∨ RefusesIllegalAnswer s (exec (.inp a) s) := by
  cases hr : s.answers with
  | nil => exact .inl ⟨s.request, by rw [execInp_asks ha hq, ask, hr]⟩
  | cons r later =>
    rw [execInp_answered ha hq hr]
    rcases answer_next_or_refused a r _ with hnext | ⟨bytes, rfl, hl, he⟩ | ⟨p, rfl, hp, he⟩
    · exact .inl hnext
    · exact .inr (.inl ⟨bytes, later, hr, hl, he⟩)
    · exact .inr (.inr ⟨p, later, hr, hp, he⟩)

/-- An `in` answers a next state, or it asks, on an empty queue, and refuses an illegal answer
(R232, R234). -/
theorem exec_inp_next_or_refuses (a : Operand) (s : State) :
    (∃ t, exec (.inp a) s = .next t) ∨
    (s.queue = [] ∧ RefusesIllegalAnswer s (exec (.inp a) s)) := by
  rcases checkDest_cases s a with ⟨ha, -⟩ | ⟨n, -, -, hc⟩ | ⟨c, -, hc⟩
  · cases hq : s.queue with
    | nil => exact (exec_inp_next_or_refuses_of_accepts ha hq).imp_right fun h => ⟨rfl, h⟩
    | cons ch waiting =>
      rw [exec_inp_of_queue ha hq]
      exact .inl (finish_next s _)
  · exact .inl ⟨_, by rw [exec, execInp, hc]⟩
  · exact .inl ⟨_, by rw [exec, execInp, hc]⟩

/-- Settles O11: a stopped machine, the skip and a fetch fault answer a next state by the step's own
definition, every instruction but `in` by `exec_next_of_ne_inp`, and `in` unless it refuses. -/
theorem stepAnswersUnlessHostIllegal : Obligations.StepAnswersUnlessHostIllegal := by
  intro s
  by_cases hs : s.status = .running
  · cases hd : decode (fetchCells s) with
    | instr i rest =>
      rw [stepRunsDecodedInstruction s i rest hs hd]
      by_cases hi : ∃ a, i = .inp a
      · obtain ⟨a, rfl⟩ := hi
        have hread : s.mem.read s.pc.toNat = some 20 := read_pc_of_decode_fetchCells hd
        exact (exec_inp_next_or_refuses a s).imp_right fun ⟨hq, h⟩ => ⟨hs, hread, hq, h⟩
      · exact .inl (exec_next_of_ne_inp s (not_exists.1 hi))
    | unknownOpcode op => exact .inl ⟨_, by rw [step_running hs, hd, runDecoded]⟩
    | missing k => exact .inl ⟨_, by rw [step_running hs, hd, runDecoded]⟩
  · exact .inl ⟨s, step_over hs⟩

end Sys2Proof.Machine

namespace Sys2Proof.Machine

/-! ### The invariant under the edits of the state

An edit keeps the clauses about the fields it leaves, so each of these lemmas names the clause that
the edit could break, with what keeps it. -/

theorem Room.mono {depth : Option Nat} {m n : Nat} (h : Room depth n) (hmn : m ≤ n) :
    Room depth m := fun d hd => hmn.trans (h d hd)

section
variable {s : State}

theorem State.Inv.raise (h : s.Inv) (r : Raised) : (s.raise r).Inv :=
  { h with
    cause := ⟨fun _ => r.cause_ne_noFault, fun _ => rfl⟩
    info := fun hnone => absurd hnone r.cause_ne_noFault }

theorem State.Inv.faultCause_of_running (h : s.Inv) (hs : s.status = .running) :
    s.faultCause = .noFault := by
  by_contra hc
  cases hs.symm.trans (h.cause.2 hc)

theorem State.Inv.stop (h : s.Inv) (hs : s.status = .running) : s.stop.Inv :=
  { h with cause := ⟨nofun, fun hc => absurd (h.faultCause_of_running hs) hc⟩ }

theorem State.Inv.jump (h : s.Inv) {v : Cell} (hv : v.toNat ≤ 32771) : (s.jump v).Inv :=
  { h with pc := hv }

/-- From an address that can hold an opcode cell no instruction leads past 32771 (R24). -/
theorem State.Inv.advance (h : s.Inv) (hpc : s.pc.toNat < 32768) {n : Nat} (hn : n ≤ 4) :
    (s.advance n).Inv := by
  refine { h with pc := ?_ }
  rw [State.advance_pc, BitVec.toNat_add, BitVec.toNat_ofNat]
  omega

theorem State.Inv.emit (h : s.Inv) (e : Event) : (s.emit e).Inv := { h with }

theorem State.Inv.request (h : s.Inv) : s.request.Inv := by
  unfold State.request
  split
  · exact h
  · exact h.emit _

theorem State.Inv.take (h : s.Inv) (r : HostAnswer) (later : List HostAnswer) :
    (s.take r later).Inv := { h with }

theorem State.Inv.withStack (h : s.Inv) {stack : List Cell}
    (hroom : Room s.config.stackDepth stack.length) : ({ s with stack := stack } : State).Inv :=
  { h with stack := (fits_iff_room _ _).2 hroom }

theorem State.Inv.withQueue (h : s.Inv) {queue : List Cell}
    (hroom : Room s.config.queueDepth queue.length) : ({ s with queue := queue } : State).Inv :=
  { h with queue := (fits_iff_room _ _).2 hroom }

theorem State.Inv.setReg (h : s.Inv) (i : Fin 8) (v : Cell) : (s.setReg i v).Inv := { h with }

theorem State.Inv.writeMem (h : s.Inv) {n : Nat} (hn : n < s.mem.size) (v : Cell) :
    ({ s with mem := s.mem.write n v } : State).Inv :=
  { h with mem := Memory.write_wf h.mem hn v }

theorem State.Inv.writeDest (h : s.Inv) {a : Operand} {v : Cell} {t : State}
    (hw : writeDest a v s = .ok t) : t.Inv := by
  rcases writeDest_cases hw with ⟨i, -, rfl⟩ | ⟨n, -, hn, rfl⟩
  · exact h.setReg i v
  · exact h.writeMem hn v

/-- A pop leaves a shorter stack. -/
theorem State.Inv.popped (h : s.Inv) {below : List Cell} {v : Cell} (hs : s.stack = below ++ [v]) :
    ({ s with stack := below } : State).Inv :=
  h.withStack (((fits_iff_room _ _).1 h.stack).mono (by simp [hs]))

/-- A dequeue leaves a shorter queue. -/
theorem State.Inv.dequeued (h : s.Inv) {ch : Cell} {later : List Cell}
    (hq : s.queue = ch :: later) : ({ s with queue := later } : State).Inv :=
  h.withQueue (((fits_iff_room _ _).1 h.queue).mono (by simp [hq]))

/-- A load brings the parts of a legal snapshot (R238), and its queue has been given room for the
line `look`. -/
theorem State.Inv.loaded (h : s.Inv) {p : Snapshot} (hp : p.legal s = true)
    (hq : Room s.config.queueDepth (p.queue.length + 5)) :
    ({ s.restore p with queue := p.queue ++ lookLine } : State).Inv := by
  obtain ⟨hmem, -, hpc, hstack⟩ := (Snapshot.legal_iff p s).1 hp
  exact { h with
    mem := hmem
    pc := hpc
    stack := (fits_iff_room _ _).2 hstack
    queue := (fits_iff_room _ _).2 (by simpa [lookLine] using hq) }

/-- Writing a destination leaves the pc (R115). -/
theorem pc_of_writeDest {a : Operand} {v : Cell} {t : State} (h : writeDest a v s = .ok t) :
    t.pc = s.pc := by
  rcases writeDest_cases h with ⟨i, -, rfl⟩ | ⟨n, -, -, rfl⟩ <;> rfl

/-! ### The invariant under a step -/

/-- No edit moves the pc (R127). -/
theorem Edited.pc_eq {i : Instr} {u : State} (h : Edited i s u) : u.pc = s.pc := by
  cases h with
  | same => rfl
  | stopped h => rfl
  | wroteReg r v => rfl
  | wroteMem n v h => rfl
  | pushed v h => rfl
  | popped below v h => rfl
  | poppedTo below v h a u hu => rw [pc_of_writeDest hu]
  | tookTo ch later h a u hu => rw [pc_of_writeDest hu]
  | wroteOut a h hv => rfl

theorem Edited.inv {i : Instr} {u : State} (h : Edited i s u) (hinv : s.Inv)
    (hs : s.status = .running) : u.Inv := by
  cases h with
  | same => exact hinv
  | stopped h => exact hinv.stop hs
  | wroteReg r v => exact hinv.setReg r v
  | wroteMem n v h => exact hinv.writeMem h v
  | pushed v h => exact hinv.withStack (by simpa using h)
  | popped below v h => exact hinv.popped h
  | poppedTo below v h a u hu => exact (hinv.popped h).writeDest hu
  | tookTo ch later h a u hu => exact (hinv.dequeued h).writeDest hu
  | wroteOut a h hv => exact hinv.emit _

theorem Answered.inv {a : Operand} {r : HostAnswer} {t : State} (h : Answered a s r t)
    (hinv : s.Inv) (hpc : s.pc.toNat < 32768) : t.Inv := by
  cases h with
  | raised r f => exact hinv.raise f
  | delivered bytes ch later hb hq u hu =>
    have hlen : later.length = bytes.length := by simpa using congrArg List.length hb.symm
    have hrest : ({ s with queue := later } : State).Inv := hinv.withQueue (hq.mono (by omega))
    exact (hrest.writeDest hu).advance (by rwa [pc_of_writeDest hu]) (by decide)
  | saved => exact hinv.emit _
  | loaded p hp hq => exact hinv.loaded hp hq
  | rejected => exact hinv

theorem Done.inv {i : Instr} {t : State} (h : Done i s t) (hinv : s.Inv)
    (hs : s.status = .running) (hpc : s.pc.toNat < 32768) : t.Inv := by
  cases h with
  | raised r => exact hinv.raise r
  | advanced u hu => exact (hu.inv hinv hs).advance (by rwa [hu.pc_eq]) (length_le_four i)
  | jumped u v hu _ hv => exact (hu.inv hinv hs).jump (hv.trans (by decide))
  | held a hi hq ha => exact hinv.request
  | answered a hi hq r later hr t ht =>
    exact ht.inv (hinv.request.take r later) (by simpa using hpc)

/-- Without a cell at the pc the fetch misses the opcode itself. -/
theorem decode_fetchCells_of_read_none (h : s.mem.read s.pc.toNat = none) :
    decode (fetchCells s) = .missing 0 := by
  simp [fetchCells, Memory.readFrom, h, decode]

/-- A pc where something is fetched is an address, and so below 32768 (R51). -/
theorem State.Inv.pc_lt_of_fetch (h : s.Inv) (hd : decode (fetchCells s) ≠ .missing 0) :
    s.pc.toNat < 32768 := by
  cases hr : s.mem.read s.pc.toNat with
  | none => exact absurd (decode_fetchCells_of_read_none hr) hd
  | some op =>
    obtain ⟨-, hsize, -⟩ := (Memory.wf_iff _).1 h.mem
    exact (Memory.lt_size_of_read hr).trans_le hsize

end

/-- Settles O15: every edit of an instruction keeps the invariant, and the pc was an address before
it advanced. -/
theorem stepKeepsInvariant : Obligations.StepKeepsInvariant := by
  intro s t hinv h
  rcases step_cases h with ⟨-, rfl⟩ | ⟨hs, ⟨i, rest, hd, he⟩ | ⟨op, hd, rfl⟩ | ⟨k, -, rfl⟩⟩
  · exact hinv
  · exact (done_of_exec he).inv hinv hs (hinv.pc_lt_of_fetch (by simp [hd]))
  · exact (hinv.emit _).advance (hinv.pc_lt_of_fetch (by simp [hd])) (by decide)
  · exact hinv.raise _

/-- Settles O14: reset is in the canonical form of memory, and all else is empty or 0. -/
theorem resetMeetsInvariant : Obligations.ResetMeetsInvariant where
  mem := reset_mem_wf
  pc := by decide
  cause := by decide
  info := fun _ => rfl
  stack := rfl
  queue := rfl

/-- A constructed machine is the reset machine with parameters and a memory of its own (R36), so it
meets the invariant with it. -/
theorem State.Inv.construct {config : Config} {image : List Cell} (h1 : 1 ≤ image.length)
    (h2 : image.length ≤ 32768) :
    ({ State.reset with config := config, mem := Memory.ofImage image } : State).Inv :=
  { resetMeetsInvariant with
    mem := Memory.ofImage_wf h1 h2
    stack := (fits_iff_room _ _).2 fun d _ => d.zero_le
    queue := (fits_iff_room _ _).2 fun d _ => d.zero_le }

/-- Settles O16: the memory is that of the image, and every other field is that of the reset state
but the parameters. -/
theorem constructionLoadsImage : Obligations.ConstructionLoadsImage := by
  intro config image
  obtain ⟨hreg, -⟩ := resetLeavesSpecValues
  refine ⟨fun h1 h2 => ?_, fun h => if_neg (by omega)⟩
  exact ⟨_, if_pos ⟨h1, h2⟩, rfl, Memory.read_ofImage image, hreg, rfl, rfl, rfl, rfl, rfl, rfl, rfl,
    .construct h1 h2⟩

end Sys2Proof.Machine

namespace Sys2Proof.Machine

/-! ### The parameters

Only a load replaces the memory as a whole, and a legal snapshot has the same size (R238). -/

/-- `t` has the parameters and MEM_SIZE of `s` (R6). -/
def SameParameters (s t : State) : Prop := t.config = s.config ∧ t.mem.size = s.mem.size

section
variable {s t : State}

theorem SameParameters.refl (s : State) : SameParameters s s := ⟨rfl, rfl⟩

theorem sameParameters_of_writeDest {a : Operand} {v : Cell} (h : writeDest a v s = .ok t) :
    SameParameters s t := by
  rcases writeDest_cases h with ⟨i, -, rfl⟩ | ⟨n, -, -, rfl⟩ <;> exact ⟨rfl, rfl⟩

theorem Edited.sameParameters {i : Instr} (h : Edited i s t) : SameParameters s t := by
  cases h with
  | same => exact .refl s
  | stopped h => exact .refl s
  | wroteReg r v => exact .refl s
  | wroteMem n v h => exact ⟨rfl, Memory.write_size _ _ _⟩
  | pushed v h => exact .refl s
  | popped below v h => exact .refl s
  | poppedTo below v h a u hu => exact (sameParameters_of_writeDest hu :)
  | tookTo ch later h a u hu => exact (sameParameters_of_writeDest hu :)
  | wroteOut a h hv => exact .refl s

theorem Answered.sameParameters {a : Operand} {r : HostAnswer} (h : Answered a s r t) :
    SameParameters s t := by
  cases h with
  | raised r f => exact .refl s
  | delivered bytes ch later hb hq u hu => exact (sameParameters_of_writeDest hu :)
  | saved => exact .refl s
  | loaded p hp hq =>
    obtain ⟨-, hsize, -⟩ := (Snapshot.legal_iff p s).1 hp
    exact ⟨rfl, hsize⟩
  | rejected => exact .refl s

theorem sameParameters_request (s : State) : SameParameters s s.request :=
  ⟨s.request_config, by rw [s.request_mem]⟩

theorem Done.sameParameters {i : Instr} (h : Done i s t) : SameParameters s t := by
  cases h with
  | raised r => exact .refl s
  | advanced u hu => exact hu.sameParameters
  | jumped u v hu hs hv => exact hu.sameParameters
  | held a hi hq ha => exact sameParameters_request s
  | answered a hi hq r later hr t ht =>
    obtain ⟨hconfig, hsize⟩ := sameParameters_request s
    obtain ⟨hconfig', hsize'⟩ := ht.sameParameters
    exact ⟨hconfig'.trans hconfig, hsize'.trans hsize⟩

end

/-- Settles O17: a stopped machine, the skip and a fetch fault leave the memory and the parameters,
and so does every instruction but for the cells it writes or loads. -/
theorem parametersNeverChange : Obligations.ParametersNeverChange := by
  intro s t h
  rcases step_cases h with ⟨-, rfl⟩ | ⟨-, ⟨i, rest, -, he⟩ | ⟨op, -, rfl⟩ | ⟨k, -, rfl⟩⟩
  · exact SameParameters.refl t
  · exact (done_of_exec he).sameParameters
  · exact SameParameters.refl s
  · exact SameParameters.refl s

/-! ### The character output -/

/-- The instruction puts no character out in `s`: it is no `out`, or one of no character (R230). -/
def EmitsNoChar (i : Instr) (s : State) : Prop :=
  ∀ a, i = .out a → s.config.outMax < (value s a).toNat

section
variable {s t : State}

/-- An event that is no character does not show in the character output (R231). -/
theorem outChars_append_of_ne_outChar (trace : List Event) {e : Event} (he : ∀ v, e ≠ .outChar v) :
    outChars (trace ++ [e]) = outChars trace := by
  cases e with
  | outChar v => exact absurd rfl (he v)
  | _ => exact (outChars_append trace _).trans (List.append_nil _)

theorem Edited.outChars_eq {i : Instr} (h : Edited i s t) (hno : EmitsNoChar i s) :
    outChars t.trace = outChars s.trace := by
  cases h with
  | same => rfl
  | stopped h => rfl
  | wroteReg r v => rfl
  | wroteMem n v h => rfl
  | pushed v h => rfl
  | popped below v h => rfl
  | poppedTo below v h a u hu => rw [trace_of_writeDest hu]
  | tookTo ch later h a u hu => rw [trace_of_writeDest hu]
  | wroteOut a h hv => exact absurd (hno a h) (Nat.not_lt.2 hv)

theorem Answered.outChars_eq {a : Operand} {r : HostAnswer} (h : Answered a s r t) :
    outChars t.trace = outChars s.trace := by
  cases h with
  | raised r f => rfl
  | delivered bytes ch later hb hq u hu => rw [State.advance_trace, trace_of_writeDest hu]
  | saved => exact outChars_append_of_ne_outChar _ nofun
  | loaded p hp hq => rfl
  | rejected => rfl

theorem State.outChars_request (s : State) : outChars s.request.trace = outChars s.trace := by
  rw [State.request_trace]
  split
  · rfl
  · exact outChars_append_of_ne_outChar _ nofun

theorem Done.outChars_eq {i : Instr} (h : Done i s t) (hno : EmitsNoChar i s) :
    outChars t.trace = outChars s.trace := by
  cases h with
  | raised r => rfl
  | advanced u hu => exact hu.outChars_eq hno
  | jumped u v hu hs hv => exact hu.outChars_eq hno
  | held a hi hq ha => exact s.outChars_request
  | answered a hi hq r later hr t ht =>
    rw [ht.outChars_eq, State.request_take_trace, outChars_answeredTrace]

/-- `out` of a character (R230). -/
theorem exec_out_of_char {a : Operand} (hv : (value s a).toNat ≤ s.config.outMax) :
    exec (.out a) s = .next ((s.emit (.outChar (value s a))).advance 2) := by
  show execOut a s = _
  rw [execOut, toChar, if_pos hv]; rfl

/-- `out` of a value above OUT_MAX (R268). -/
theorem exec_out_of_no_char {a : Operand} (hv : s.config.outMax < (value s a).toNat) :
    exec (.out a) s = .next (s.raise (.invalidCharacter (value s a))) := by
  show execOut a s = _
  rw [execOut, toChar, if_neg (Nat.not_le.2 hv)]; rfl

end

/-- Settles O43: the two sides of OUT_MAX. -/
theorem outEmitsCharacter : Obligations.OutEmitsCharacter :=
  fun _ _ => ⟨exec_out_of_char, exec_out_of_no_char⟩

/-- Settles O19: an `out` of a character is executed as such, and nothing else that a step does puts
a character out. -/
theorem outCharOnlyFromOut : Obligations.OutCharOnlyFromOut := by
  intro s t hs h
  constructor
  · intro a rest hd hv
    rw [stepRunsDecodedInstruction s _ rest hs hd, exec_out_of_char hv] at h
    obtain rfl := Host.Outcome.next.inj h
    exact outChars_append _ _
  · intro hno
    rcases step_cases h with ⟨-, rfl⟩ | ⟨-, ⟨i, rest, hd, he⟩ | ⟨op, -, rfl⟩ | ⟨k, -, rfl⟩⟩
    · rfl
    · exact (done_of_exec he).outChars_eq fun a hi => hno a rest (hi ▸ hd)
    · exact outChars_append_of_ne_outChar _ nofun
    · rfl

/-! ### Faults are precise

A Running machine becomes Faulted by a raise alone, and a raise is taken in the state the step began
in, or, within an answered request, in that state with the answer taken (R262; log entry 12). -/

section
variable {s t : State}

theorem Edited.status_ne_faulted {i : Instr} (h : Edited i s t) (hs : s.status = .running) :
    t.status ≠ .faulted := by
  have hrunning {u : State} (hu : u.status = s.status) : u.status ≠ .faulted := by simp [hu, hs]
  cases h with
  | stopped h => exact nofun
  | poppedTo below v h a u hu => exact hrunning (status_of_writeDest hu :)
  | tookTo ch later h a u hu => exact hrunning (status_of_writeDest hu :)
  | _ => exact hrunning rfl

theorem Answered.raised_of_faulted {a : Operand} {r : HostAnswer} (h : Answered a s r t)
    (hs : s.status = .running) (ht : t.status = .faulted) : ∃ f, t = s.raise f := by
  have hrunning {u : State} (hu : u.status = s.status) : u.status ≠ .faulted := by simp [hu, hs]
  cases h with
  | raised r f => exact ⟨f, rfl⟩
  | delivered bytes ch later hb hq u hu => exact absurd ht (hrunning (status_of_writeDest hu :))
  | _ => exact absurd ht (hrunning rfl)

/-- Where an instruction that faults takes its fault. -/
theorem Done.raised_of_faulted {i : Instr} (h : Done i s t) (hs : s.status = .running)
    (ht : t.status = .faulted) :
    (∃ f, t = s.raise f) ∨ ∃ r later f, t = (s.request.take r later).raise f := by
  cases h with
  | raised f => exact .inl ⟨f, rfl⟩
  | advanced u hu => exact absurd ht (hu.status_ne_faulted hs)
  | jumped u v hu _ hv => exact absurd ht (hu.status_ne_faulted hs)
  | held a hi hq ha => simp [hs] at ht
  | answered a hi hq r later hr t h =>
    obtain ⟨f, rfl⟩ := h.raised_of_faulted (by simpa using hs) ht
    exact .inr ⟨r, later, f, rfl⟩

/-- Where a step that faults takes its fault. -/
theorem step_raised_of_faulted (hs : s.status = .running) (h : step s = .next t)
    (ht : t.status = .faulted) :
    (∃ f, t = s.raise f) ∨ ∃ r later f, t = (s.request.take r later).raise f := by
  rcases step_cases h with ⟨hover, -⟩ | ⟨-, ⟨i, rest, -, he⟩ | ⟨op, -, rfl⟩ | ⟨k, -, rfl⟩⟩
  · exact absurd hs hover
  · exact (done_of_exec he).raised_of_faulted hs ht
  · cases hs.symm.trans ht
  · exact .inl ⟨_, rfl⟩

/-- Neither a request nor its answer is an output (R10, R235). -/
theorem filter_isOutput_answeredTrace (s : State) (r : HostAnswer) :
    (answeredTrace s r).filter Event.isOutput = s.trace.filter Event.isOutput := by
  unfold answeredTrace
  split <;> simp [List.filter_append, Event.isOutput]

end

/-- Settles O21: the raise leaves all but the three status registers, and the request and the answer
before it are no outputs. -/
theorem faultsArePrecise : Obligations.FaultsArePrecise := by
  intro s t hs h ht
  rcases step_raised_of_faulted hs h ht with ⟨f, rfl⟩ | ⟨r, later, f, rfl⟩
  · exact ⟨rfl, rfl, rfl, rfl, rfl, f.cause_ne_noFault, rfl⟩
  · rw [State.request_take]
    exact ⟨rfl, rfl, rfl, rfl, rfl, f.cause_ne_noFault, filter_isOutput_answeredTrace s r⟩

/-- Settles O10: the step of a machine that is over. -/
theorem stoppedMachineStaysPut : Obligations.StoppedMachineStaysPut := fun _ => step_over

/-! ### A fetch beyond memory

The cells fetched are then the first `k` of the instruction's encoding, and the decoder names the
one that comes next as missing (R125). -/

theorem decode1_take {mk : Operand → Instr} (a : Cell) {k : Nat} (hk : k < 1) :
    decode1 mk ([a].take k) = .missing (k + 1) := by
  match k, hk with
  | 0, _ => rfl

theorem decode2_take {mk : Operand → Operand → Instr} (a b : Cell) {k : Nat} (hk : k < 2) :
    decode2 mk ([a, b].take k) = .missing (k + 1) := by
  match k, hk with
  | 0, _ => rfl
  | 1, _ => rfl

theorem decode3_take {mk : Operand → Operand → Operand → Instr} (a b c : Cell) {k : Nat}
    (hk : k < 3) : decode3 mk ([a, b, c].take k) = .missing (k + 1) := by
  match k, hk with
  | 0, _ => rfl
  | 1, _ => rfl
  | 2, _ => rfl

/-- The beginning of an encoding decodes to its first cell that is not there (R125). -/
theorem decode_take_encode {i : Instr} {k : Nat} (hk : k < i.length) :
    decode ((encode i).take k) = .missing k := by
  cases k with
  | zero => rfl
  | succ k =>
    have hk : k < i.operands.length := by rw [Instr.length] at hk; omega
    show decode (i.code :: (i.operands.map Operand.raw).take k) = _
    cases i with
    | halt | ret | noop => cases hk
    | push a | pop a | jmp a | call a | out a | inp a => exact decode1_take _ hk
    | set a b | jt a b | jf a b | not a b | rmem a b | wmem a b => exact decode2_take _ _ hk
    | eq a b c | gt a b c | add a b c | mult a b c | mod a b c | and a b c | or a b c =>
      exact decode3_take _ _ _ hk

/-- The fetch ends before the first address that does not exist (R51, R125). -/
theorem fetchCells_eq_take {s : State} {cells : List Cell} {k : Nat} (hk : k < 4)
    (hcells : ∀ j, j < k → s.mem.read (s.pc.toNat + j) = cells[j]?)
    (hend : s.mem.read (s.pc.toNat + k) = none) : fetchCells s = cells.take k := by
  apply List.ext_getElem?
  intro j
  rw [List.getElem?_take]
  split
  · next hj => rw [getElem?_fetchCells s (hj.trans hk), hcells j hj]
  · next hj =>
    by_cases hj4 : j < 4
    · have hsize := (Memory.read_eq_none_iff _ _).1 hend
      rw [getElem?_fetchCells s hj4]
      exact (Memory.read_eq_none_iff _ _).2 (by omega)
    · have hlen : (fetchCells s).length ≤ 4 := Memory.length_readFrom_le _ _ _
      exact List.getElem?_eq_none (by omega)

/-- Settles O9: what is fetched is the beginning of the encoding, which decodes to its missing
cell. -/
theorem stepFaultsBeyondMemory : Obligations.StepFaultsBeyondMemory := by
  intro s i k hs _ hk hcells hend
  rw [step_running hs, fetchCells_eq_take (hk.trans_le (length_le_four i)) hcells hend,
    decode_take_encode hk]
  rfl

end Sys2Proof.Machine

namespace Sys2Proof.Machine

section
variable {i : Instr} {s : State} {a b : Operand}

/-! ### Destinations

What an accepted destination gets before the pc advances, and what any other does, for the
instructions that do not go through `storeResult`. -/

/-- A write to an accepted destination and the advance after it (R115, R127). -/
theorem writeDest_advance_of_accepts (h : Accepts s a) (v : Cell) (len : Nat) :
    ∃ t, (do let u ← writeDest a v s; return u.advance len) = Except.ok t ∧ Wrote s t a v ∧
      t.pc = s.pc + BitVec.ofNat 16 len ∧ SameRest s t := by
  obtain ⟨u, hu, hwrote, hpc, ⟨⟩⟩ := writeDest_of_accepts h v
  refine ⟨u.advance len, by rw [hu]; rfl, ?_, by rw [State.advance_pc, hpc],
    by constructor <;> simpa⟩
  cases a with
  | register i => simpa [Wrote] using hwrote
  | number n => simpa [Wrote] using hwrote
  | invalid c => exact hwrote

/-- An instruction that raises what CheckDest raises refuses its destination (R264, R267). -/
theorem refusesDest_of_checkDest
    (h : ∀ f, checkDest s a = .error f → exec i s = .next (s.raise f)) : RefusesDest i s a := by
  cases a with
  | register j => trivial
  | number n =>
    intro hn
    rw [h _ (if_neg (Nat.not_lt.2 hn)), State.raise_eq_faultedWith, Raised.info,
      BitVec.ofNat_toNat]
    rfl
  | invalid c => exact h _ rfl

/-! ### The stack -/

/-- A bounded stack or queue has no room beyond its depth (R26, R29). -/
theorem not_room_of_lt {depth : Option Nat} {d n : Nat} (hd : depth = some d) (hn : d < n) :
    ¬Room depth n := fun h => Nat.not_le.2 hn (h d hd)

theorem push_of_not_room (h : ¬Room s.config.stackDepth (s.stack.length + 1)) (v : Cell) :
    push v s = .error (.stackOverflow v) :=
  if_neg fun hfits => h ((fits_iff_room _ _).1 hfits)

/-- `push` without room (R269). -/
theorem exec_push_of_not_room (h : ¬Room s.config.stackDepth (s.stack.length + 1)) :
    exec (.push a) s = .next (s.raise (.stackOverflow (value s a))) := by
  show execPush a s = _
  rw [execPush, push_of_not_room h]; rfl

/-- `pop` on an empty stack, whatever its destination (R265). -/
theorem exec_pop_of_empty (h : s.stack = []) :
    exec (.pop a) s = .next (s.raise .stackUnderflow) := by
  show execPop a s = _
  simp [execPop, pop, h]

/-- `pop` of a top looks at the destination before it takes the top (R162). -/
theorem exec_pop_of_stack {below : List Cell} {v : Cell} (h : s.stack = below ++ [v]) :
    exec (.pop a) s = finish s do
      checkDest s a
      let t ← writeDest a v { s with stack := below }
      return t.advance 2 := by
  show execPop a s = _
  rw [execPop, pop_append h]

/-! ### Jumps, call and ret -/

theorem asNumber_of_ge {v : Cell} (h : 32768 ≤ v.toNat) :
    asNumber v = .error (.invalidOperand v) := if_neg (by omega)

theorem finish_jumpTo_of_le {v : Cell} (h : v.toNat ≤ 32767) :
    finish s (jumpTo v s) = .next { s with pc := v } := by
  rw [jumpTo, asNumber_of_le h]; rfl

theorem jumpTo_of_ge {v : Cell} (h : 32768 ≤ v.toNat) (s : State) :
    jumpTo v s = .error (.invalidOperand v) := by
  rw [jumpTo, asNumber_of_ge h]; rfl

theorem finish_jumpTo_of_ge {v : Cell} (h : 32768 ≤ v.toNat) :
    finish s (jumpTo v s) = .next (s.raise (.invalidOperand v)) := by
  rw [jumpTo_of_ge h, finish_error]

theorem exec_jt_taken (h : value s a ≠ 0) :
    exec (.jt a b) s = finish s (jumpTo (value s b) s) := congrArg (finish s) (if_pos h)

theorem exec_jt_untaken (h : value s a = 0) :
    exec (.jt a b) s = .next { s with pc := s.pc + 3 } :=
  congrArg (finish s) (if_neg (not_not.2 h))

theorem exec_jf_taken (h : value s a = 0) :
    exec (.jf a b) s = finish s (jumpTo (value s b) s) := congrArg (finish s) (if_pos h)

theorem exec_jf_untaken (h : value s a ≠ 0) :
    exec (.jf a b) s = .next { s with pc := s.pc + 3 } := congrArg (finish s) (if_neg h)

/-- `call` of a value that is no number pushes nothing (R220). -/
theorem exec_call_of_bad_target (hv : 32768 ≤ (value s a).toNat) :
    exec (.call a) s = .next (s.raise (.invalidOperand (value s a))) := by
  show execCall a s = _
  rw [execCall, asNumber_of_ge hv]; rfl

/-- `call` of a number without room (R269). -/
theorem exec_call_of_not_room (hv : (value s a).toNat ≤ 32767)
    (h : ¬Room s.config.stackDepth (s.stack.length + 1)) :
    exec (.call a) s = .next (s.raise (.stackOverflow (s.pc + 2))) := by
  show execCall a s = _
  rw [execCall, asNumber_of_le hv, push_of_not_room h]; rfl

/-- `ret` to a top that is no number leaves it on the stack (R221). -/
theorem exec_ret_of_bad_top {below : List Cell} {v : Cell} (h : s.stack = below ++ [v])
    (hv : 32768 ≤ v.toNat) : exec .ret s = .next (s.raise (.invalidOperand v)) := by
  show execRet s = _
  rw [execRet, pop_append h]
  exact congrArg (finish s) (jumpTo_of_ge hv _)

/-! ### Results that may raise -/

/-- An instruction that stores a result which raises faults with it, its destination accepted. -/
theorem exec_of_storeResult_error {result : Except Raised Cell} {len : Nat} {f : Raised}
    (ha : Accepts s a) (h : exec i s = storeResult a result len s) (hf : result = .error f) :
    exec i s = .next (s.raise f) := by
  rw [h, hf, storeResult_error ha]

theorem aluMod_of_ne {p q : Cell} (h : q.toNat % 32768 ≠ 0) :
    aluMod p q = .ok (BitVec.ofNat 16 (p.toNat % 32768 % (q.toNat % 32768))) := if_neg h

theorem aluMod_of_eq {p q : Cell} (h : q.toNat % 32768 = 0) :
    aluMod p q = .error (.divisionByZero q) := if_pos h

theorem exec_mod (a b c : Operand) (s : State) :
    exec (.mod a b c) s = storeResult a (aluMod (value s b) (value s c)) 4 s := rfl

theorem loadCell_of_ge {addr : Cell} (h : 32768 ≤ addr.toNat) :
    loadCell addr s = .error (.invalidOperand addr) := by
  rw [loadCell, asNumber_of_ge h]; rfl

theorem loadCell_of_read {addr v : Cell} (h : addr.toNat ≤ 32767)
    (hread : s.mem.read addr.toNat = some v) : loadCell addr s = .ok v := by
  rw [loadCell, asNumber_of_le h]
  show memRead s addr.toNat = _
  rw [memRead, hread]

theorem loadCell_of_size_le {addr : Cell} (h : addr.toNat ≤ 32767)
    (hsize : s.mem.size ≤ addr.toNat) :
    loadCell addr s = .error (.memoryBounds addr.toNat) := by
  rw [loadCell, asNumber_of_le h]
  show memRead s addr.toNat = _
  rw [memRead, (Memory.read_eq_none_iff _ _).2 hsize]

theorem exec_rmem (a b : Operand) (s : State) :
    exec (.rmem a b) s = storeResult a (loadCell (value s b) s) 3 s := rfl

/-- The cell of a bad address is recorded whole (R267). -/
theorem raise_memoryBounds_toNat (s : State) (v : Cell) :
    s.raise (.memoryBounds v.toNat) = s.faultedWith .memoryBounds v := by
  rw [State.raise_eq_faultedWith, Raised.info, BitVec.ofNat_toNat, BitVec.setWidth_eq]
  rfl

end

/-! ### The statements about single instructions -/

/-- Settles O29: `set` of a register is the write of an accepted destination; of any other operand
it is the raise of RegIdx (R112). -/
theorem setWritesOnlyARegister : Obligations.SetWritesOnlyARegister := by
  intro a b s
  refine ⟨?_, ?_, ?_⟩
  · rintro i rfl
    obtain ⟨t, ht, hwrote⟩ :=
      writeDest_advance_of_accepts (a := .register i) (s := s) trivial (value s b) 3
    exact ⟨t, congrArg (finish s) ht, hwrote⟩
  · rintro n rfl; rfl
  · rintro c rfl; rfl

/-- Settles O30: the two sides of the stack's depth. -/
theorem pushAppendsValue : Obligations.PushAppendsValue := fun _ _ =>
  ⟨exec_push_of_room, fun _ hd hfull =>
    exec_push_of_not_room (not_room_of_lt hd (Nat.lt_succ_of_le hfull))⟩

/-- Settles O31: with a top on the stack, `pop` writes its destination in the state that has lost
the top, or refuses it before. -/
theorem popMovesTopToDestination : Obligations.PopMovesTopToDestination := by
  intro a s
  refine ⟨exec_pop_of_empty, fun below v hstack => ⟨fun ha => ?_, ?_⟩⟩
  · obtain ⟨t, ht, hwrote⟩ :=
      writeDest_advance_of_accepts (s := { s with stack := below }) ha v 2
    refine ⟨t, ?_, hwrote⟩
    rw [exec_pop_of_stack hstack, checkDest_of_accepts ha]
    exact congrArg (finish s) ht
  · refine refusesDest_of_checkDest fun f hf => ?_
    rw [exec_pop_of_stack hstack, hf]
    rfl

/-- Settles O34: `mod` stores what the arithmetic unit answers, or raises what it raises. -/
theorem modStoresRemainder : Obligations.ModStoresRemainder := by
  intro a b c s
  have hexec := exec_mod a b c s
  refine ⟨fun hc => ?_, fun hc => ⟨fun ha => ?_, refusesDest_of_storeResult hexec⟩⟩
  · exact putsResult_of_storeResult (aluMod_of_ne hc ▸ hexec)
  · exact exec_of_storeResult_error ha hexec (aluMod_of_eq hc)

/-- Settles O37: a jump that is taken is the redirect to its target, one that is not is an advance
past its three cells. -/
theorem conditionalJumpsTestRawValue : Obligations.ConditionalJumpsTestRawValue := fun _ _ _ =>
  ⟨fun h hv => (exec_jt_taken h).trans (finish_jumpTo_of_le hv),
    fun h hv => (exec_jt_taken h).trans (finish_jumpTo_of_ge hv),
    exec_jt_untaken,
    fun h hv => (exec_jf_taken h).trans (finish_jumpTo_of_le hv),
    fun h hv => (exec_jf_taken h).trans (finish_jumpTo_of_ge hv),
    exec_jf_untaken⟩

/-- Settles O38: `rmem` stores the cell it loads, or raises what the load raises. -/
theorem rmemLoadsCell : Obligations.RmemLoadsCell := by
  intro a b s
  have hexec := exec_rmem a b s
  refine ⟨fun v hv hread => ?_, fun ha hv => ?_, fun ha hv hsize => ?_,
    refusesDest_of_storeResult hexec⟩
  · exact putsResult_of_storeResult (loadCell_of_read hv hread ▸ hexec)
  · exact exec_of_storeResult_error ha hexec (loadCell_of_ge hv)
  · rw [← raise_memoryBounds_toNat]
    exact exec_of_storeResult_error ha hexec (loadCell_of_size_le hv hsize)

/-- Settles O39: the three cases of `wmem`, each excluding the others. -/
theorem wmemStoresCell : Obligations.WmemStoresCell := by
  intro a b s
  rw [← raise_memoryBounds_toNat]
  rcases exec_wmem_cases a b s with ⟨hv, hn, e⟩ | ⟨hv, e⟩ | ⟨hv, hn, e⟩
  · refine ⟨fun _ _ => ⟨_, e, ?_, fun addr haddr => ?_, rfl, rfl, by constructor <;> rfl⟩,
      by omega, by omega⟩
    · simp [Memory.read_write, hn]
    · simp [Memory.read_write, hn, haddr]
  · exact ⟨by omega, fun _ => e, by omega⟩
  · exact ⟨by omega, by omega, fun _ _ => e⟩

/-- Settles O40: `call` with a number and room, with no number, and with a number and no room. -/
theorem callPushesReturnAddress : Obligations.CallPushesReturnAddress := fun _ _ =>
  ⟨exec_call_of_room, exec_call_of_bad_target, fun hv _ hd hfull =>
    exec_call_of_not_room hv (not_room_of_lt hd (Nat.lt_succ_of_le hfull))⟩

/-- Settles O41: on an empty stack `ret` is a halting instruction, and otherwise the top decides. -/
theorem retPopsOrHalts : Obligations.RetPopsOrHalts := fun _ =>
  ⟨fun hempty => exec_of_haltsIn (.inr ⟨rfl, hempty⟩), fun _ _ hstack =>
    ⟨exec_ret_of_stack hstack, exec_ret_of_bad_top hstack⟩⟩

/-- Settles O36: `jmp` is the redirect to its value. -/
theorem jmpRedirects : Obligations.JmpRedirects :=
  fun _ _ => ⟨finish_jumpTo_of_le, finish_jumpTo_of_ge⟩

/-- Settles O27: `halt` is a halting instruction in every state. -/
theorem haltStopsTheMachine : Obligations.HaltStopsTheMachine :=
  fun _ => exec_of_haltsIn (.inl rfl)

/-- Settles O22: the codes are computed. -/
theorem statusAndFaultCodes : Obligations.StatusAndFaultCodes := by
  unfold Obligations.StatusAndFaultCodes
  decide

end Sys2Proof.Machine

namespace Sys2Proof.Machine

section
variable {a : Operand} {s : State} {later : List HostAnswer}

/-! ### in, by its queue and its answers -/

/-- A waiting character goes into an accepted destination, and the queue loses it (R232). -/
theorem deliver_of_queue {ch : Cell} {waiting : List Cell} (ha : Accepts s a)
    (hq : s.queue = ch :: waiting) :
    ∃ t, deliver a s = .ok t ∧ Wrote s t a ch ∧ t.pc = s.pc + 2 ∧
      SameRest { s with queue := waiting } t := by
  obtain ⟨t, ht, hwrote⟩ := writeDest_advance_of_accepts (s := { s with queue := waiting }) ha ch 2
  refine ⟨t, ?_, hwrote⟩
  rw [deliver, dequeue_cons hq]
  exact ht

/-- The destination is checked before all else (R232). -/
theorem exec_inp_of_checkDest_error {f : Raised} (h : checkDest s a = .error f) :
    exec (.inp a) s = .next (s.raise f) := by
  show execInp a s = _
  rw [execInp, h]

/-- Asking the host adds to the trace alone (R235). -/
theorem State.request_eq (s : State) :
    s.request = { s with
      trace := if s.trace.getLast? = some .lineRequest then s.trace
        else s.trace ++ [.lineRequest] } := by
  rw [← State.request_trace]
  unfold State.request
  split <;> rfl

/-- Without an answer the request is all that happens (R241; log entry 7). -/
theorem exec_inp_held (ha : Accepts s a) (hq : s.queue = []) (hr : s.answers = []) :
    exec (.inp a) s = .next s.request := by
  rw [execInp_asks ha hq, ask, hr]

theorem enqueue_of_not_room {cells : List Cell}
    (h : ¬Room s.config.queueDepth (s.queue.length + cells.length)) :
    enqueue cells s = .error (.queueOverflow cells.length) :=
  if_neg fun hfits => h ((fits_iff_room _ _).1 hfits)

/-- On a legal line without room, nothing is queued or delivered (R29, R236). -/
theorem exec_inp_line_of_not_room {bytes : List Cell} (ha : Accepts s a) (hq : s.queue = [])
    (hr : s.answers = .line bytes :: later) (hl : legalLine bytes = true)
    (hroom : ¬Room s.config.queueDepth (bytes.length + 1)) :
    exec (.inp a) s =
      .next (State.raise { s with answers := later, trace := answeredTrace s (.line bytes) }
        (.queueOverflow (bytes.length + 1))) := by
  rw [execInp_answered ha hq hr, answer, if_pos hl,
    enqueue_of_not_room (by simpa [hq] using hroom), List.length_append]
  rfl

/-- On `Load` of a legal snapshot whose queue leaves no room for `look`, nothing is replaced (R29,
R238; log entry 9). -/
theorem exec_inp_load_of_not_room {p : Snapshot} (ha : Accepts s a) (hq : s.queue = [])
    (hr : s.answers = .load p :: later) (hp : p.legal s = true)
    (hroom : ¬Room s.config.queueDepth (p.queue.length + 5)) :
    exec (.inp a) s =
      .next (State.raise { s with answers := later, trace := answeredTrace s (.load p) }
        (.queueOverflow 5)) :=
  calc exec (.inp a) s
      = answer a (.load p) { s with answers := later, trace := answeredTrace s (.load p) } :=
        execInp_answered ha hq hr
    _ = finish _ (enqueue lookLine _) := if_pos hp
    _ = _ := congrArg (finish _) (enqueue_of_not_room hroom)

/-- A line that is none is refused (R236; log entry 8). -/
theorem exec_inp_illegal_line {bytes : List Cell} (ha : Accepts s a) (hq : s.queue = [])
    (hr : s.answers = .line bytes :: later) (hl : ¬legalLine bytes = true) :
    exec (.inp a) s = .refused .illegalLine :=
  (execInp_answered ha hq hr).trans (if_neg hl)

/-- A snapshot that cannot be this machine's is refused (R238; log entry 9). -/
theorem exec_inp_illegal_snapshot {p : Snapshot} (ha : Accepts s a) (hq : s.queue = [])
    (hr : s.answers = .load p :: later) (hp : ¬p.legal s = true) :
    exec (.inp a) s = .refused .illegalSnapshot :=
  (execInp_answered ha hq hr).trans (if_neg hp)

end

/-! ### The statements about in -/

/-- Settles O44: with a character waiting, `in` is the delivery. -/
theorem inDeliversFront : Obligations.InDeliversFront := by
  intro a s ch later hq ha
  obtain ⟨t, ht, hwrote⟩ := deliver_of_queue ha hq
  refine ⟨t, ?_, hwrote⟩
  rw [exec_inp_of_queue ha hq, ht, finish_ok]

/-- Settles O46: the line and its newline are queued, and the delivery is from them. -/
theorem inTakesLine : Obligations.InTakesLine := by
  intro a s bytes later ch rest ha hq hr hascii hsave hload hroom hbytes
  have hl : legalLine bytes = true := (legalLine_iff bytes).2 ⟨hascii, hsave, hload⟩
  obtain ⟨t, ht, hwrote⟩ := deliver_of_queue (s := { s with
    queue := bytes ++ [10], answers := later, trace := answeredTrace s (.line bytes) }) ha hbytes
  refine ⟨t, ?_, hwrote⟩
  rw [exec_inp_line ha hq hr hl hroom, ht, finish_ok]

/-- Settles O50: the snapshot is legal, and the room in the queue decides. -/
theorem inLoadReplacesState : Obligations.InLoadReplacesState := by
  intro a s p later ha hq hr hmem hsize hpc hstack
  have hp : p.legal s = true := (Snapshot.legal_iff p s).2 ⟨hmem, hsize, hpc, hstack⟩
  exact ⟨exec_inp_load ha hq hr hp, fun d hd hfull =>
    exec_inp_load_of_not_room ha hq hr hp (not_room_of_lt hd hfull)⟩

/-- Settles O52: each clause breaks one of the conditions that make the answer legal. -/
theorem illegalAnswersRefused : Obligations.IllegalAnswersRefused := by
  intro a s later ha hq
  constructor
  · intro bytes b hr hb hbig
    refine exec_inp_illegal_line ha hq hr fun hl => ?_
    obtain ⟨hascii, -⟩ := (legalLine_iff bytes).1 hl
    exact Nat.not_le.2 hbig (hascii b hb)
  · intro p hr hbad
    refine exec_inp_illegal_snapshot ha hq hr fun hp => ?_
    obtain ⟨-, hsize, hpc, hstack⟩ := (Snapshot.legal_iff p s).1 hp
    rcases hbad with h | h | h
    · exact h hsize
    · exact Nat.not_le.2 h hpc
    · exact h hstack

/-- Settles O53: the line and its newline have no room in the bounded queue. -/
theorem longLineOverflowsBoundedQueue : Obligations.LongLineOverflowsBoundedQueue :=
  fun _ _ _ _ _ ha hq hr hl hd hlong =>
    exec_inp_line_of_not_room ha hq hr hl (not_room_of_lt hd hlong)

/-- Settles O45: `in` raises what CheckDest raises. -/
theorem inChecksDestinationFirst : Obligations.InChecksDestinationFirst :=
  fun _ _ => refusesDest_of_checkDest fun _ => exec_inp_of_checkDest_error

/-- Settles O49: the answer `Fail` is the raise of HostFailure, the answer taken. -/
theorem inFailRaisesHostFailure : Obligations.InFailRaisesHostFailure :=
  fun _ _ _ ha hq hr => execInp_answered ha hq hr

/-- Settles O51: without an answer to come, `in` is the request. -/
theorem inHeldWithoutAnswer : Obligations.InHeldWithoutAnswer :=
  fun _ s ha hq hr => (exec_inp_held ha hq hr).trans (congrArg _ s.request_eq)

end Sys2Proof.Machine
